-- ==== Sys2Proof/Word.lean ====
section
/-! DEFINITION. The word types of the block (00_scope.md section 1: a 32-bit CRC register, a 64-bit fold word, an 8-bit message byte).
Every value is an unsigned bit vector of a stated width (rule R4). The four values whose width is the parameter `AW` (`ADDR`, `LEN`, `PTR`,
`REM`: R3, R14, R50) are numbers below `2 ^ AW`, since `AW` is an argument of the model and not of its types (assumption log 1). -/

namespace Sys2Proof

/-- One message byte (R30: one byte of 8 bits per address). -/
abbrev Byte := BitVec 8

/-- A 32-bit value: a CRC register, a table entry, a polynomial, `ARG`, `RESULT` (R11, R12, R18). -/
abbrev Word := BitVec 32

/-- The 64-bit fold word `w` of one eight-byte read, and the wire `t` of a fold step (R24, R33, R122). -/
abbrev DWord := BitVec 64

end Sys2Proof
end

