-- ==== Sys2Proof/Config.lean ====
section
/-! DEFINITION. What an implementation fixes and the spec leaves open (rule R3, and 93_implementation_defined.md).
`defaultAw` is the spec's own default. Everything declared `opaque` has no body: no proof can see its value, so a claim about the model holds
whatever the value is (assumption log 2, 3, 4). -/

namespace Sys2Proof.Config

/-- The default R3 takes for `AW`, the width in bits of an address and of a count. Only `State.reset` uses it: the model itself takes `AW` as
an argument, held in the state (assumption log 1). -/
def defaultAw : Nat := 64

/-- `NCTX - 1`: how many contexts the machine has beside context 0. R3 leaves `NCTX >= 1` OPEN, so this number is free (assumption log 2). -/
opaque extraContexts : Nat

/-- `NCTX` of the machine that `State.reset` describes. -/
def nctx : Nat := extraContexts + 1

/-- Which context the `n`-th free choice of the scheduler lets move: R20 fixes no order of the contexts' steps, so the choice is free
(assumption log 3). -/
opaque freeTurn : Nat → Nat

/-- What `R` of context `c` holds after the reset that drew free number `k`: R22 leaves it unspecified (assumption log 4). -/
opaque powerUpR (k c : Nat) : BitVec 32

/-- What `C` of context `c` holds after the reset that drew free number `k` (R22; assumption log 4). -/
opaque powerUpC (k c : Nat) : BitVec 32

/-- What the two bits of `VAR` of context `c` hold after the reset that drew free number `k` (R22; assumption log 4). -/
opaque powerUpVar (k c : Nat) : BitVec 2

/-- The number whose low `AW` bits `PTR` of context `c` holds after the reset that drew free number `k` (R22; assumption log 4). -/
opaque powerUpPtr (k c : Nat) : Nat

/-- The number whose low `AW` bits `REM` of context `c` holds after the reset that drew free number `k` (R22; assumption log 4). -/
opaque powerUpRem (k c : Nat) : Nat

/-- What `T[row][n]` holds after the reset that drew free number `k` (R22; assumption log 4). -/
opaque powerUpT (k row n : Nat) : BitVec 32

end Sys2Proof.Config
end

