-- ==== Sys2Proof/Syntax.lean ====
section
/-! DEFINITION. The command as the port carries it, and the command as the decoder reads it: one constructor of `Instr` for each of
the seven rows of spec/opcode_table.json (rule R55). -/

namespace Sys2Proof

/-- A command as it stands at the command port: the five fields of format `CMD` (R50). -/
structure Command where
  /-- `CTX`: which context is to run the command; routing only. -/
  ctx  : Nat
  /-- `OP`: the only field a decoder inspects. -/
  op   : BitVec 8
  /-- `ARG`: an explicit initial value (class 1) or a running CRC (class 2); ignored by class 0. -/
  arg  : Word
  /-- `ADDR`, `AW` bits: byte address of the first message byte. -/
  addr : Nat
  /-- `LEN`, `AW` bits: number of message bytes, unsigned. -/
  len  : Nat
deriving DecidableEq, Repr

/-- The seven commands, each with the operands R55 says it uses and the context it is routed to. -/
inductive Instr where
  /-- `BS.MPEG2` (R80). -/
  | bsMpeg2 (ctx : Nat) (addr len : Nat)
  /-- `BS.XFER` (R81). -/
  | bsXfer (ctx : Nat) (addr len : Nat)
  /-- `BS.AIXM` (R82). -/
  | bsAixm (ctx : Nat) (addr len : Nat)
  /-- `BSI.MPEG2` (R83). -/
  | bsiMpeg2 (ctx : Nat) (arg : Word) (addr len : Nat)
  /-- `BSI.XFER` (R84). -/
  | bsiXfer (ctx : Nat) (arg : Word) (addr len : Nat)
  /-- `BSI.AIXM` (R85). -/
  | bsiAixm (ctx : Nat) (arg : Word) (addr len : Nat)
  /-- `C32C.UPDATE` (R124). -/
  | c32cUpdate (ctx : Nat) (arg : Word) (addr len : Nat)
deriving DecidableEq, Repr

/-- Why the decoder refuses a command. -/
inductive DecodeError where
  /-- `OP` is one of the 249 illegal values of R56; the accept step answers with the fault `IllegalCommand` (R153). -/
  | illegalCommand (op : BitVec 8)
deriving DecidableEq, Repr

end Sys2Proof
end

