-- ==== Sys2Proof/Decode.lean ====
section
/-! DEFINITION. The decoder and the encoder (30_encoding.md rules R50, R51, R53, R55, R56, R59), and the layout the host's question
about one opcode-table word needs. The decoder compares all eight bits of `OP` and looks at nothing else to choose the command. -/

namespace Sys2Proof

/-- `CLASS = OP[7:4]` (R51). -/
def opClass (op : BitVec 8) : BitVec 4 := op.extractLsb' 4 4

/-- `ZERO = OP[3:2]` (R50). -/
def opZero (op : BitVec 8) : BitVec 2 := op.extractLsb' 2 2

/-- `TAG = OP[1:0]` (R53). -/
def opTag (op : BitVec 8) : BitVec 2 := op.extractLsb' 0 2

/-- The decoder: total on all 256 values of `OP`, with the seven legal values of R55 and a rejection by name for the 249 others (R56).
`ARG` is dropped for class 0, which ignores it (R54). -/
def decode (k : Command) : Except DecodeError Instr :=
  if k.op = 0x00#8 then .ok (.bsMpeg2 k.ctx k.addr k.len)
  else if k.op = 0x01#8 then .ok (.bsXfer k.ctx k.addr k.len)
  else if k.op = 0x02#8 then .ok (.bsAixm k.ctx k.addr k.len)
  else if k.op = 0x10#8 then .ok (.bsiMpeg2 k.ctx k.arg k.addr k.len)
  else if k.op = 0x11#8 then .ok (.bsiXfer k.ctx k.arg k.addr k.len)
  else if k.op = 0x12#8 then .ok (.bsiAixm k.ctx k.arg k.addr k.len)
  else if k.op = 0x20#8 then .ok (.c32cUpdate k.ctx k.arg k.addr k.len)
  else .error (.illegalCommand k.op)

/-- The encoder: the fields of a command, from the table of R55. `ARG` of a class 0 command is written as 0 (R60). -/
def encode : Instr → Command
  | .bsMpeg2 ctx addr len => { ctx := ctx, op := 0x00#8, arg := 0#32, addr := addr, len := len }
  | .bsXfer ctx addr len => { ctx := ctx, op := 0x01#8, arg := 0#32, addr := addr, len := len }
  | .bsAixm ctx addr len => { ctx := ctx, op := 0x02#8, arg := 0#32, addr := addr, len := len }
  | .bsiMpeg2 ctx arg addr len => { ctx := ctx, op := 0x10#8, arg := arg, addr := addr, len := len }
  | .bsiXfer ctx arg addr len => { ctx := ctx, op := 0x11#8, arg := arg, addr := addr, len := len }
  | .bsiAixm ctx arg addr len => { ctx := ctx, op := 0x12#8, arg := arg, addr := addr, len := len }
  | .c32cUpdate ctx arg addr len => { ctx := ctx, op := 0x20#8, arg := arg, addr := addr, len := len }

/-- The longest command word of `commandOfWord`: `OP` 8, `ARG` 32, `ADDR` and `LEN` `aw` bits each. -/
def commandBits (aw : Nat) : Nat := 40 + aw + aw

/-- The command whose fields are the bits of one number: `OP` in bits 7:0, `ARG` in 39:8, `ADDR` in the next `aw` bits and `LEN` in the
`aw` bits after them, bits from `nbits` up read as 0, `CTX = 0`. The spec packs nothing (D2): this order of the fields is the model's
DESIGN CHOICE (assumption log 5) and serves only the host's question about a table word. -/
def commandOfWord (aw nbits w : Nat) : Command :=
  let v := w % 2 ^ nbits
  { ctx := 0
    op := BitVec.ofNat 8 v
    arg := BitVec.ofNat 32 (v / 2 ^ 8)
    addr := v / 2 ^ 40 % 2 ^ aw
    len := v / 2 ^ (40 + aw) % 2 ^ aw }

/-- The number `commandOfWord` reads a command's fields from. -/
def wordOfCommand (aw : Nat) (k : Command) : Nat :=
  k.op.toNat + k.arg.toNat * 2 ^ 8 + k.addr * 2 ^ 40 + k.len * 2 ^ (40 + aw)

/-- The command the decoder reads from such a number, at a given `AW`; none where it refuses. -/
def decodeWord (aw nbits w : Nat) : Option Instr :=
  match decode (commandOfWord aw nbits w) with
  | .ok i => some i
  | .error _ => none

/-- The command the decoder reads from an opcode-table word, at the default `AW`. -/
def decodeTableWord (nbits w : Nat) : Option Instr := decodeWord Config.defaultAw nbits w

end Sys2Proof
end

