-- ==== Sys2Proof/Machine/State.lean ====
section
/-! DEFINITION. Everything the spec gives the block (10_state.md), the two ports and the message memory around it, and what the model adds:
the list of outside events, the counter of free values, and the command in progress of each context. All of it is plain data. -/

namespace Sys2Proof.Machine

/-- `SEQ`, the phase of a context's sequencer: seven values (R15). -/
inductive Seq where
  /-- No transaction; the context can accept a command. -/
  | idle
  /-- The bit-serial loop. -/
  | bsRun
  /-- A CRC-32C command is accepted and the guard not yet passed. -/
  | cGuard
  /-- This context is building the table. -/
  | cBuild
  /-- The bytes up to the first 8-byte boundary. -/
  | cHead
  /-- Whole aligned 8-byte words. -/
  | cFold
  /-- The 0 to 7 bytes left. -/
  | cTail
deriving DecidableEq, Repr

/-- `TBL_STATE`, the table's build-once guard: the three legal values of the 2-bit register (R16; encodings in `TblState.code`). -/
inductive TblState where
  | empty
  | building
  | ready
deriving DecidableEq, Repr

/-- One request context: its private registers (R10 to R15), and the model's own record of the command in progress. -/
structure Context where
  /-- `R`, the CRC register of the bit-serial unit (R11). -/
  r   : Word
  /-- `C`, the working register of the table unit, complemented (R12). -/
  c   : Word
  /-- `VAR`, the variant tag latched by the accept step of a bit-serial command (R13). -/
  var : BitVec 2
  /-- `PTR`, `AW` bits, the address of the next message byte not yet consumed (R14). -/
  ptr : Nat
  /-- `REM`, `AW` bits, the number of message bytes not yet consumed (R14). -/
  rem : Nat
  /-- `SEQ` (R15). -/
  seq : Seq
  /-- The MODEL's own field: the command in progress, which R25 (e) and R176 speak of. No step of the block reads it (assumption log 6). -/
  job : Option Instr
deriving DecidableEq, Repr

/-- `T`, 8 rows of 256 entries of 32 bits; the first index is the row (R18, 90_conflicts.md C10). -/
structure Table where
  rows : Vector (Vector Word 256) 8
deriving DecidableEq, Repr

/-- The message memory: `Mem` and `Valid` of R3 in one list. A listed address is `Valid` and holds the byte beside it; an address that is
not listed is not `Valid` and reads as nothing (assumption log 7). Canonical form: `Memory.wf`. -/
structure Memory where
  cells : List Host.Cell
deriving DecidableEq, Repr

/-- The code of an error response (R58). -/
inductive ErrCode where
  /-- `ILLEGAL_COMMAND`, the fault `IllegalCommand` (R153). -/
  | illegalCommand
  /-- `INVALID_ARGUMENT`, the fault `InvalidArgument` (R155). -/
  | invalidArgument
deriving DecidableEq, Repr

/-- A response: a sum type with no value in the error case (R58, 93_implementation_defined.md U6). -/
inductive Response where
  | ok (result : Word)
  | err (code : ErrCode)
deriving DecidableEq, Repr

/-- A response together with the context whose requester receives it (R58). -/
structure Reply where
  ctx  : Nat
  resp : Response
deriving DecidableEq, Repr

/-- What can happen next. Every event falls between two steps of the block, since a step is atomic (R20). -/
inductive Event where
  /-- Context `c` takes the step it has enabled; if it has none the turn passes (R20, R105). -/
  | turn (c : Nat)
  /-- A requester puts a command on the command port (R50). -/
  | present (k : Command)
  /-- The host writes one byte of message memory (R43, R176). -/
  | hostWrite (a : Nat) (b : Byte)
  /-- Reset, an external event (R170, R171). -/
  | reset
deriving DecidableEq, Repr

/-- The parameters of R3, the arguments a model of the block takes. A block is built with them; they are legal in the sense of
`Platform.Legal`. -/
structure Platform where
  /-- `AW`. -/
  aw   : Nat
  /-- `NCTX`. -/
  nctx : Nat
  /-- `Valid` and `Mem`. -/
  mem  : Memory
deriving DecidableEq, Repr

/-- The state: the block, its two ports, the message memory, and the model's own fields. Three of the parameters of R3 stand in it as
data, so that a statement about every state is one about every value of them: `AW` as `aw`, `NCTX` as the length of `ctxs`, `Valid` and
`Mem` as `mem`. -/
structure State where
  /-- `AW`, the width in bits of an address and of a count (R3). A parameter, not a register: no step writes it (assumption log 1). -/
  aw       : Nat
  /-- The `NCTX` contexts; context `c` is entry `c` (R10). -/
  ctxs     : List Context
  /-- `TBL_STATE`, shared (R16). -/
  tblState : TblState
  /-- `TBL_IDX`, shared: the number of table entries the build has written (R17). -/
  tblIdx   : BitVec 12
  /-- `T`, shared (R18). -/
  table    : Table
  /-- The message memory (R30). -/
  mem      : Memory
  /-- The commands presented at the command port and not yet taken or refused, oldest first (R50). -/
  port     : List Command
  /-- Every response returned so far on the response port, oldest first (R58). -/
  outbox   : List Reply
  /-- The MODEL's own field: what happens next, first event first; when it is empty a free choice of `Config.freeTurn` decides
  (assumption log 3). -/
  events   : List Event
  /-- The MODEL's own field: how many free values have been drawn (assumption logs 3 and 4). -/
  freeCtr  : Nat
deriving DecidableEq, Repr

/-- Why the model stops. None of these is a fault of the spec (the spec's two faults are error responses, after which the machine goes
on): each marks a state the block cannot reach, where no rule gives the step a meaning. -/
inductive Fault where
  /-- An `ABSORB`, byte or fold step read an address that is not `Valid`; raised by the three reading steps; no reachable state does
  (R37). Safe: the model stops where the spec defines no read. -/
  | unreadable (a : Nat)
  /-- A fold step found `PTR` not a multiple of 8, where `MemRead(a, 8)` is not defined; raised by the fold step; no reachable state does
  (R35). Safe. -/
  | misaligned (a : Nat)
  /-- An `ABSORB` step found `VAR = 3`, which selects no polynomial; raised by the `ABSORB` step; no reachable state does (R13). Safe. -/
  | reservedVariant
deriving DecidableEq, Repr

/-- What the model has no move for. -/
inductive Refusal where
  /-- An instruction with no meaning yet; raised by no arm of `exec` now. Safe. -/
  | notModelled (mnemonic : String)
  /-- The host writes a byte of a message between the command and its response, breaking the duty of R176; raised by the event
  `hostWrite`. 93_implementation_defined.md U3 says to refuse; unsafe in the sense of D21: a claim says nothing about such a run. -/
  | messageWritten (a : Nat)
deriving DecidableEq, Repr

/-- What a context of a block with `aw`-bit addresses holds after the reset that drew free number `k`: `SEQ = IDLE`, and every other
register unspecified, so free (R22). -/
def Context.powerUp (aw k c : Nat) : Context :=
  { r := Config.powerUpR k c
    c := Config.powerUpC k c
    var := Config.powerUpVar k c
    ptr := Config.powerUpPtr k c % 2 ^ aw
    rem := Config.powerUpRem k c % 2 ^ aw
    seq := .idle
    job := none }

/-- What `T` holds after the reset that drew free number `k`: unspecified, so free (R18, R22). -/
def Table.powerUp (k : Nat) : Table :=
  { rows := Vector.ofFn fun row => Vector.ofFn fun n => Config.powerUpT k row.val n.val }

/-- `n` contexts numbered from `c` on, right after the reset that drew free number `k`. -/
def contextsFrom (aw k : Nat) : Nat → Nat → List Context
  | _, 0 => []
  | c, n + 1 => Context.powerUp aw k c :: contextsFrom aw k (c + 1) n

/-- A block with the given parameters right after power-on reset (R22, R170): `NCTX` contexts, all `IDLE`; `TBL_STATE = EMPTY`;
`TBL_IDX = 0`; nothing at the ports, nothing running. -/
def State.powerOn (p : Platform) : State :=
  { aw := p.aw
    ctxs := contextsFrom p.aw 0 0 p.nctx
    tblState := .empty
    tblIdx := 0#12
    table := Table.powerUp 0
    mem := p.mem
    port := []
    outbox := []
    events := []
    freeCtr := 1 }

/-- The parameters of the machine the host starts: the default `AW`, a free `NCTX`, and a message memory with nothing listed (assumption
logs 1, 2, 7). -/
def Platform.default : Platform := { aw := Config.defaultAw, nctx := Config.nctx, mem := { cells := [] } }

/-- The machine the host starts, right after power-on reset. -/
def State.reset : State := State.powerOn Platform.default

end Sys2Proof.Machine
end

