-- ==== Sys2Proof/Machine/Operands.lean ====
section
/-! DEFINITION. The hardwired constants (R19, R70, R100), the operands of a command, the read primitives of the message memory that
address them (R32, R33), and the operand check of the accept step (R57 step 2, R155). -/

namespace Sys2Proof.Machine

/-- `ONES`, the complement mask (R19). -/
def ones : Word := 0xFFFFFFFF#32

/-- `POLYC`, the Castagnoli polynomial in reflected form (R100). -/
def polyC : Word := 0x82F63B78#32

/-- The tag of variant MPEG2 (R53). -/
def tagMpeg2 : BitVec 2 := 0#2

/-- The tag of variant XFER (R53). -/
def tagXfer : BitVec 2 := 1#2

/-- The tag of variant AIXM (R53). -/
def tagAixm : BitVec 2 := 2#2

/-- `Init(MPEG2)` (R70). -/
def initMpeg2 : Word := 0xFFFFFFFF#32

/-- `Init(XFER)` (R70). -/
def initXfer : Word := 0x00000000#32

/-- `Init(AIXM)` (R70). -/
def initAixm : Word := 0x00000000#32

/-- `Poly(MPEG2)` (R70). -/
def polyMpeg2 : Word := 0x04C11DB7#32

/-- `Poly(XFER)` (R70). -/
def polyXfer : Word := 0x000000AF#32

/-- `Poly(AIXM)` (R70). -/
def polyAixm : Word := 0x814141AB#32

/-- `Poly(v)` for the three tags (R70); tag 3 is reserved and selects nothing (R53). -/
def poly? (v : BitVec 2) : Option Word :=
  if v = tagMpeg2 then some polyMpeg2
  else if v = tagXfer then some polyXfer
  else if v = tagAixm then some polyAixm
  else none

/-- The byte a list of cells holds at an address; none where it is not listed. -/
def Memory.lookup : List Host.Cell → Nat → Option Byte
  | [], _ => none
  | (a', b) :: rest, a => if a' = a then some b else lookup rest a

/-- `MemRead(a, 1)` (R32): `Mem(a)` where `Valid(a)`, nothing elsewhere. -/
def Memory.read? (m : Memory) (a : Nat) : Option Byte := Memory.lookup m.cells a

/-- `Valid(a)` (R3). -/
def Memory.valid (m : Memory) (a : Nat) : Bool := (m.read? a).isSome

/-- `Valid` holds at each of the `n` addresses from `a` on. -/
def Memory.validRange (m : Memory) : Nat → Nat → Bool
  | _, 0 => true
  | a, n + 1 => m.valid a && m.validRange (a + 1) n

/-- `msg` of R55: the `n` message bytes from address `a` on, lowest address first. -/
def Memory.message (m : Memory) : Nat → Nat → List Byte
  | _, 0 => []
  | a, n + 1 => (m.read? a).toList ++ m.message (a + 1) n

/-- Eight bytes as one 64-bit word, `b0` least significant (R33, R34). -/
def le64 (b0 b1 b2 b3 b4 b5 b6 b7 : Byte) : DWord :=
  b7 ++ b6 ++ b5 ++ b4 ++ b3 ++ b2 ++ b1 ++ b0

/-- `MemRead(a, 8)` without its alignment condition, which the fold step checks (R33): the byte at the lowest address is the least
significant. -/
def Memory.read8? (m : Memory) (a : Nat) : Option DWord :=
  match m.read? a, m.read? (a + 1), m.read? (a + 2), m.read? (a + 3),
      m.read? (a + 4), m.read? (a + 5), m.read? (a + 6), m.read? (a + 7) with
  | some b0, some b1, some b2, some b3, some b4, some b5, some b6, some b7 => some (le64 b0 b1 b2 b3 b4 b5 b6 b7)
  | _, _, _, _, _, _, _, _ => none

/-- The operand check of the accept step: `LEN = 0`, or `ADDR + LEN <= 2^AW` as integers and `Valid` on the whole range (R57, R155). -/
def argumentsOk (aw : Nat) (m : Memory) (addr len : Nat) : Bool :=
  len == 0 || (decide (addr + len ≤ 2 ^ aw) && m.validRange addr len)

/-- Whether address `a` lies in `[ADDR, ADDR + LEN)`. -/
def inRange (addr len a : Nat) : Bool := decide (addr ≤ a) && decide (a < addr + len)

/-- The cursor after a step that consumes `k` bytes: `PTR` goes up by `k`, an `AW`-bit register (R14: at `ADDR + LEN = 2^AW` it ends at 0). -/
def advance (aw ptr k : Nat) : Nat := (ptr + k) % 2 ^ aw

end Sys2Proof.Machine

namespace Sys2Proof

/-- The `CTX` field of a decoded command (R50). -/
def Instr.ctx : Instr → Nat
  | .bsMpeg2 ctx _ _ => ctx
  | .bsXfer ctx _ _ => ctx
  | .bsAixm ctx _ _ => ctx
  | .bsiMpeg2 ctx _ _ _ => ctx
  | .bsiXfer ctx _ _ _ => ctx
  | .bsiAixm ctx _ _ _ => ctx
  | .c32cUpdate ctx _ _ _ => ctx

/-- The `ADDR` field of a decoded command (R50). -/
def Instr.addr : Instr → Nat
  | .bsMpeg2 _ addr _ => addr
  | .bsXfer _ addr _ => addr
  | .bsAixm _ addr _ => addr
  | .bsiMpeg2 _ _ addr _ => addr
  | .bsiXfer _ _ addr _ => addr
  | .bsiAixm _ _ addr _ => addr
  | .c32cUpdate _ _ addr _ => addr

/-- The `LEN` field of a decoded command (R50). -/
def Instr.len : Instr → Nat
  | .bsMpeg2 _ _ len => len
  | .bsXfer _ _ len => len
  | .bsAixm _ _ len => len
  | .bsiMpeg2 _ _ _ len => len
  | .bsiXfer _ _ _ len => len
  | .bsiAixm _ _ _ len => len
  | .c32cUpdate _ _ _ len => len

end Sys2Proof
end

