-- ==== Sys2Proof/Machine/Ops.lean ====
section
/-! DEFINITION. The shared operations: contexts, the table, the message memory, the two ports, raising a fault (R152), and what the outside
world can do (present a command, write message memory, reset). -/

namespace Sys2Proof.Machine

/-! ### Contexts -/

/-- Context `c`, if the block has one of that number (R10). -/
def State.ctx? (s : State) (c : Nat) : Option Context := s.ctxs[c]?

/-- Context `c` replaced: the one way a step writes a context, and the only context it writes (R10). -/
def State.setCtx (s : State) (c : Nat) (x : Context) : State := { s with ctxs := s.ctxs.set c x }

/-! ### The table -/

/-- `T[k][n]` (R18). -/
def Table.get (t : Table) (k : BitVec 3) (n : Byte) : Word := (t.rows.get k.toFin).get n.toFin

/-- `T[k][n] <- v` (R18). -/
def Table.set (t : Table) (k : BitVec 3) (n : Byte) (v : Word) : Table :=
  { rows := t.rows.set k.toNat ((t.rows.get k.toFin).set n.toNat v n.isLt) k.isLt }

/-! ### The message memory, as its host sees it -/

/-- The canonical form: addresses strictly rising. An unlisted address reads as nothing, so no entry can equal what an unlisted address
reads as. -/
def Memory.wfCells : List Host.Cell → Bool
  | [] => true
  | [_] => true
  | (a, _) :: (a', b') :: rest => decide (a < a') && wfCells ((a', b') :: rest)

/-- The memory is in canonical form. -/
def Memory.wf (m : Memory) : Bool := Memory.wfCells m.cells

/-- Every listed address lies in the address space `[0, 2^AW)` (R3, R30). -/
def Memory.within (aw : Nat) (m : Memory) : Bool := m.cells.all fun cell => decide (cell.1 < 2 ^ aw)

/-- The byte at a listed address replaced; an address that is not listed is left alone. -/
def Memory.writeCells : List Host.Cell → Nat → Byte → List Host.Cell
  | [], _, _ => []
  | (a', b') :: rest, a, b => if a' = a then (a', b) :: rest else (a', b') :: writeCells rest a b

/-- The host writes one byte. `Valid` is a parameter of the platform (R3), so a write outside it reaches no message byte and changes
nothing here (assumption log 11). -/
def Memory.write (m : Memory) (a : Nat) (b : Byte) : Memory := { cells := Memory.writeCells m.cells a b }

/-- A cell put in its place in a rising list, or over the cell of the same address. -/
def Memory.placeCells : List Host.Cell → Nat → Byte → List Host.Cell
  | [], a, b => [(a, b)]
  | (a', b') :: rest, a, b =>
    if a < a' then (a, b) :: (a', b') :: rest
    else if a = a' then (a, b) :: rest
    else (a', b') :: placeCells rest a b

/-- The platform is set up so that address `a` is `Valid` and holds `b`: how a test or a claim describes `Mem` and `Valid`. No step
does this. -/
def Memory.place (m : Memory) (a : Nat) (b : Byte) : Memory := { cells := Memory.placeCells m.cells a b }

/-- Bytes placed at consecutive addresses from `a` on. -/
def Memory.placeBytes (m : Memory) : Nat → List Byte → Memory
  | _, [] => m
  | a, b :: bs => (m.place a b).placeBytes (a + 1) bs

/-! ### The command port -/

/-- The command at the port that context `c` would take: the oldest with `CTX = c` (R50, R57; assumption log 8). -/
def State.nextCommand (s : State) (c : Nat) : Option Command := s.port.find? fun k => k.ctx == c

/-- That command leaves the port: it has been taken, or refused with a response (R57). -/
def State.dropCommand (s : State) (c : Nat) : State := { s with port := s.port.eraseP fun k => k.ctx == c }

/-! ### The response port, and raising a fault -/

/-- A response is returned to the requester of context `c` (R58). -/
def State.respond (s : State) (c : Nat) (r : Response) : State := { s with outbox := s.outbox ++ [{ ctx := c, resp := r }] }

/-- `raise F(info)` in the accept step of context `c`: the refused command leaves the port, the error response is returned, and nothing
else changes (R152). There is no trap entry, no saved state and no return (R158, R159): the context stays `IDLE`. -/
def State.raise (s : State) (c : Nat) (e : ErrCode) : State := (s.dropCommand c).respond c (.err e)

/-- `STATUS[1:0]` of a response (R58). -/
def Response.status : Response → BitVec 2
  | .ok _ => 0#2
  | .err .illegalCommand => 1#2
  | .err .invalidArgument => 2#2

/-! ### Accepting a command -/

/-- Steps 2 and 3 of the accept step (R57) for context `c`: with `SEQ = IDLE`, the operand check, then either `InvalidArgument` or the
command taken from the port and the context's registers loaded. While the context is busy, and for a number that is no context's, the
command waits at the port (R50, R177). -/
def accept (c : Nat) (addr len : Nat) (load : Context → Context) (s : State) : Host.Outcome State Fault Refusal :=
  match s.ctx? c with
  | none => .next s
  | some x =>
    if x.seq = .idle then
      if argumentsOk s.aw s.mem addr len then .next ((s.dropCommand c).setCtx c (load x))
      else .next (s.raise c .invalidArgument)
    else .next s

/-! ### What the outside world does -/

/-- A command as the fields of the port carry it: `ADDR` and `LEN` have `AW` bits, so no wider number can be expressed (R50, R54;
assumption log 1). -/
def Command.carried (aw : Nat) (k : Command) : Command := { k with addr := k.addr % 2 ^ aw, len := k.len % 2 ^ aw }

/-- A requester presents a command (R50). -/
def State.present (s : State) (k : Command) : State := { s with port := s.port ++ [Command.carried s.aw k] }

/-- Whether address `a` belongs to the message of a command that has been presented and not yet answered (R176). -/
def State.inFlight (s : State) (a : Nat) : Bool :=
  s.port.any (fun k => inRange k.addr k.len a) ||
  s.ctxs.any fun x => match x.job with
    | some i => inRange i.addr i.len a
    | none => false


/-- Reset, from any state (R170, R171): every context `IDLE`, the table discarded, every transaction in progress abandoned with no response,
everything else unspecified, so free. Commands still waiting at the port are withdrawn (assumption log 10); the message memory and the
responses already returned are outside the block and stay. -/
def State.resetBlock (s : State) : State :=
  { s with
    ctxs := contextsFrom s.aw s.freeCtr 0 s.ctxs.length
    tblState := .empty
    tblIdx := 0#12
    table := Table.powerUp s.freeCtr
    port := []
    freeCtr := s.freeCtr + 1 }

end Sys2Proof.Machine
end

