-- ==== Sys2Proof/Machine/Flags.lean ====
section
/-! DEFINITION. The block has no arithmetic flag (R16). Its one status flag is `TBL_STATE`, the table's build-once guard: its encodings, and
the guard step, the one atomic read-modify-write of the block (R42, R105). -/

namespace Sys2Proof.Machine

/-- The encodings of `TBL_STATE`; encoding 3 never occurs (R16). -/
def TblState.code : TblState → BitVec 2
  | .empty => 0#2
  | .building => 1#2
  | .ready => 2#2

/-- The guard step of context `c`, in `C_GUARD` (R105): test-and-set. `EMPTY`: this context becomes the builder. `READY`: it passes.
`BUILDING`: the step is not enabled, the context is held and the turn passes. -/
def guardStep (c : Nat) (x : Context) (s : State) : State :=
  match s.tblState with
  | .empty => { s with tblState := .building, tblIdx := 0#12 }.setCtx c { x with seq := .cBuild }
  | .ready => s.setCtx c { x with seq := .cHead }
  | .building => s

end Sys2Proof.Machine
end

