-- ==== Sys2Proof/Machine/BitSerial.lean ====
section
/-! DEFINITION. The bit-serial non-reflected CRC-32 unit (40_bit_serial.md): its micro-operations, its two steps, and the meanings of the six
commands of classes BS and BSI. -/

namespace Sys2Proof.Machine

/-- `BITSTEP(r, p)` (R71): the top bit tested before the shift, the XOR applied after it. -/
def bitStep (r p : Word) : Word := if r.msb then (r <<< 1) ^^^ p else r <<< 1

/-- `n` bit steps. -/
def bitSteps : Nat → Word → Word → Word
  | 0, r, _ => r
  | n + 1, r, p => bitSteps n (bitStep r p) p

/-- `ABSORB(r, b, p)` (R72): the byte XORed into the top 8 bits, then exactly eight bit steps. -/
def absorb (r : Word) (b : Byte) (p : Word) : Word := bitSteps 8 (r ^^^ (b.setWidth 32 <<< 24)) p

/-- `BSCRC(i, p, bytes)` (R73): the left fold of `ABSORB`, returned unmodified. -/
def bscrc (i p : Word) (bytes : List Byte) : Word := bytes.foldl (fun r b => absorb r b p) i

/-- The `ABSORB` step of context `c`, enabled when `SEQ = BS_RUN` and `REM > 0` (R74). -/
def absorbStep (c : Nat) (x : Context) (s : State) : Host.Outcome State Fault Refusal :=
  match s.mem.read? x.ptr with
  | none => .fault (.unreadable x.ptr)
  | some b =>
    match poly? x.var with
    | none => .fault .reservedVariant
    | some p => .next (s.setCtx c { x with r := absorb x.r b p, ptr := advance s.aw x.ptr 1, rem := x.rem - 1 })

/-- The bit-serial finish step of context `c`, enabled when `SEQ = BS_RUN` and `REM = 0` (R77): `R` is returned as it stands. -/
def finishBitSerial (c : Nat) (x : Context) (s : State) : State :=
  (s.setCtx c { x with seq := .idle, job := none }).respond c (.ok x.r)

/-- The step a context takes in `BS_RUN`. -/
def bitSerialStep (c : Nat) (x : Context) (s : State) : Host.Outcome State Fault Refusal :=
  if x.rem = 0 then .next (finishBitSerial c x s) else absorbStep c x s

/-- What the accept step of a bit-serial command loads (R57, R75, R76). -/
def loadBitSerial (i : Instr) (tag : BitVec 2) (r : Word) (addr len : Nat) (x : Context) : Context :=
  { x with var := tag, r := r, ptr := addr, rem := len, seq := .bsRun, job := some i }

/-- `BS.MPEG2` (R75, R80). -/
def execBsMpeg2 (ctx : Nat) (addr len : Nat) (s : State) : Host.Outcome State Fault Refusal :=
  accept ctx addr len (loadBitSerial (.bsMpeg2 ctx addr len) tagMpeg2 initMpeg2 addr len) s

/-- `BS.XFER` (R75, R81). -/
def execBsXfer (ctx : Nat) (addr len : Nat) (s : State) : Host.Outcome State Fault Refusal :=
  accept ctx addr len (loadBitSerial (.bsXfer ctx addr len) tagXfer initXfer addr len) s

/-- `BS.AIXM` (R75, R82). -/
def execBsAixm (ctx : Nat) (addr len : Nat) (s : State) : Host.Outcome State Fault Refusal :=
  accept ctx addr len (loadBitSerial (.bsAixm ctx addr len) tagAixm initAixm addr len) s

/-- `BSI.MPEG2`: `ARG` is loaded as given, with no complement (R76, R83). -/
def execBsiMpeg2 (ctx : Nat) (arg : Word) (addr len : Nat) (s : State) : Host.Outcome State Fault Refusal :=
  accept ctx addr len (loadBitSerial (.bsiMpeg2 ctx arg addr len) tagMpeg2 arg addr len) s

/-- `BSI.XFER` (R76, R84). -/
def execBsiXfer (ctx : Nat) (arg : Word) (addr len : Nat) (s : State) : Host.Outcome State Fault Refusal :=
  accept ctx addr len (loadBitSerial (.bsiXfer ctx arg addr len) tagXfer arg addr len) s

/-- `BSI.AIXM` (R76, R85). -/
def execBsiAixm (ctx : Nat) (arg : Word) (addr len : Nat) (s : State) : Host.Outcome State Fault Refusal :=
  accept ctx addr len (loadBitSerial (.bsiAixm ctx arg addr len) tagAixm arg addr len) s

end Sys2Proof.Machine
end

