-- ==== Sys2Proof/Machine/Build.lean ====
section
/-! DEFINITION. The CRC-32C table: the values it must hold (R101 to R103), and the entry-write and publish steps that build it (R106, R107). -/

namespace Sys2Proof.Machine

/-- `RSTEP(c)`, the reflected one-bit step (R101). -/
def rstep (c : Word) : Word := if c.getLsbD 0 then (c >>> 1) ^^^ polyC else c >>> 1

/-- `n` reflected one-bit steps. -/
def rsteps : Nat → Word → Word
  | 0, c => c
  | n + 1, c => rsteps n (rstep c)

/-- `TAB(0, n)` (R102): eight reflected steps from the byte zero-extended. -/
def tabRow0 (n : Byte) : Word := rsteps 8 (n.setWidth 32)

/-- `TAB(k, n)` (R102, R103). -/
def tab : Nat → Byte → Word
  | 0, n => tabRow0 n
  | k + 1, n => let p := tab k n; tabRow0 (p.setWidth 8) ^^^ (p >>> 8)

/-- The lookup function of the finished table (R25 (c)). -/
def tabAt (k : BitVec 3) (n : Byte) : Word := tab k.toNat n

/-- The finished table as storage. -/
def Table.final : Table := { rows := Vector.ofFn fun k => Vector.ofFn fun n => tab k.val (BitVec.ofFin n) }

/-- Row and index of an entry number: `TBL_IDX[10:8]` and `TBL_IDX[7:0]` (R17). -/
def entryRow (idx : BitVec 12) : BitVec 3 := idx.extractLsb' 8 3

/-- See `entryRow`. -/
def entryIndex (idx : BitVec 12) : Byte := idx.extractLsb' 0 8

/-- The value the entry-write step writes at row `k`, index `n`: `TAB(0, n)` in row 0, the recurrence over the stored table in the other rows
(R106). -/
def entryValue (t : Table) (k : BitVec 3) (n : Byte) : Word :=
  if k = 0#3 then tabRow0 n
  else let p := t.get (k - 1#3) n; t.get 0#3 (p.setWidth 8) ^^^ (p >>> 8)

/-- The entry-write step of the builder, enabled when `TBL_IDX < 2048` (R106). -/
def entryWrite (s : State) : State :=
  let k := entryRow s.tblIdx
  let n := entryIndex s.tblIdx
  { s with table := s.table.set k n (entryValue s.table k n), tblIdx := s.tblIdx + 1#12 }

/-- The publish step of the builder `c`, enabled when `TBL_IDX = 2048` (R107). Steps are atomic and in one total order (R40), so the barrier
it carries is the order itself. -/
def publishStep (c : Nat) (x : Context) (s : State) : State :=
  { s with tblState := .ready }.setCtx c { x with seq := .cHead }

/-- The step a context takes in `C_BUILD`. `TBL_IDX` never exceeds 2048 (R17); above it no step is enabled and the turn passes. -/
def buildStep (c : Nat) (x : Context) (s : State) : State :=
  if s.tblIdx.toNat < 2048 then entryWrite s
  else if s.tblIdx.toNat = 2048 then publishStep c x s
  else s

end Sys2Proof.Machine
end

