-- ==== Sys2Proof/Machine/Crc32c.lean ====
section
/-! DEFINITION. The CRC-32C update (42_crc32c_update.md): the byte step, the fold step, the three phases, the finish step, the function the
command computes, and the meaning of `C32C.UPDATE`. -/

namespace Sys2Proof.Machine

/-- `CBYTE(c, b)`, the Sarwate byte step over a table lookup `t` (R121). -/
def cbyte (t : BitVec 3 → Byte → Word) (c : Word) (b : Byte) : Word := t 0#3 (c.setWidth 8 ^^^ b) ^^^ (c >>> 8)

/-- `CFOLD(c, w)`, the 8-byte fold step over a table lookup `t`: the XOR at 64 bits, then row `7-N` for byte `N` (R122, C3). -/
def cfold (t : BitVec 3 → Byte → Word) (c : Word) (w : DWord) : Word :=
  let v := c.setWidth 64 ^^^ w
  t 7#3 (v.extractLsb' 0 8) ^^^ t 6#3 (v.extractLsb' 8 8) ^^^ t 5#3 (v.extractLsb' 16 8) ^^^ t 4#3 (v.extractLsb' 24 8)
    ^^^ t 3#3 (v.extractLsb' 32 8) ^^^ t 2#3 (v.extractLsb' 40 8) ^^^ t 1#3 (v.extractLsb' 48 8) ^^^ t 0#3 (v.extractLsb' 56 8)

/-! ### The function the command computes -/

/-- The head loop of R126: byte steps while the address is not a multiple of 8 and bytes remain. -/
def headLoop : Nat → Word → List Byte → Word × List Byte
  | _, c, [] => (c, [])
  | a, c, b :: bs => if a % 8 = 0 then (c, b :: bs) else headLoop (a + 1) (cbyte tabAt c b) bs

/-- The fold loop of R126: fold steps while at least 8 bytes remain. -/
def foldLoop : Word → List Byte → Word × List Byte
  | c, b0 :: b1 :: b2 :: b3 :: b4 :: b5 :: b6 :: b7 :: bs => foldLoop (cfold tabAt c (le64 b0 b1 b2 b3 b4 b5 b6 b7)) bs
  | c, bs => (c, bs)

/-- `C32C(run, a, bytes)` (R126): complement, head loop, fold loop, tail loop, complement. -/
def c32c (run : Word) (a : Nat) (bytes : List Byte) : Word :=
  let h := headLoop a (run ^^^ ones) bytes
  let f := foldLoop h.1 h.2
  f.2.foldl (cbyte tabAt) f.1 ^^^ ones

/-- `C32CB(run, bytes)`, the byte-wise form (R127). -/
def c32cBytewise (run : Word) (bytes : List Byte) : Word := bytes.foldl (cbyte tabAt) (run ^^^ ones) ^^^ ones

/-! ### The steps -/

/-- A byte step of context `c`, in the head or the tail phase (R123). -/
def byteStep (c : Nat) (x : Context) (s : State) : Host.Outcome State Fault Refusal :=
  match s.mem.read? x.ptr with
  | none => .fault (.unreadable x.ptr)
  | some b => .next (s.setCtx c { x with c := cbyte s.table.get x.c b, ptr := advance s.aw x.ptr 1, rem := x.rem - 1 })

/-- A fold step of context `c` (R123). `MemRead(a, 8)` is defined only at a multiple of 8 with all eight bytes `Valid` (R33). -/
def foldStep (c : Nat) (x : Context) (s : State) : Host.Outcome State Fault Refusal :=
  if x.ptr % 8 = 0 then
    match s.mem.read8? x.ptr with
    | none => .fault (.unreadable x.ptr)
    | some w => .next (s.setCtx c { x with c := cfold s.table.get x.c w, ptr := advance s.aw x.ptr 8, rem := x.rem - 8 })
  else .fault (.misaligned x.ptr)

/-- A phase change: nothing but `SEQ` is written (R123). -/
def phaseChange (c : Nat) (x : Context) (q : Seq) (s : State) : State := s.setCtx c { x with seq := q }

/-- The CRC-32C finish step: the register complemented and returned (R125). -/
def finishCrc32c (c : Nat) (x : Context) (s : State) : State :=
  (s.setCtx c { x with seq := .idle, job := none }).respond c (.ok (x.c ^^^ ones))

/-- The step a context takes in `C_HEAD` (R123). `PTR[2:0] != 0` is evaluated as `PTR mod 8 != 0` (R35). -/
def headStep (c : Nat) (x : Context) (s : State) : Host.Outcome State Fault Refusal :=
  if x.ptr % 8 ≠ 0 ∧ x.rem ≠ 0 then byteStep c x s else .next (phaseChange c x .cFold s)

/-- The step a context takes in `C_FOLD` (R123). -/
def foldPhaseStep (c : Nat) (x : Context) (s : State) : Host.Outcome State Fault Refusal :=
  if 8 ≤ x.rem then foldStep c x s else .next (phaseChange c x .cTail s)

/-- The step a context takes in `C_TAIL` (R123, R125). -/
def tailStep (c : Nat) (x : Context) (s : State) : Host.Outcome State Fault Refusal :=
  if x.rem ≠ 0 then byteStep c x s else .next (finishCrc32c c x s)

/-! ### The command -/

/-- What the accept step of `C32C.UPDATE` loads: the running CRC complemented (R57, R120). -/
def loadCrc32c (i : Instr) (arg : Word) (addr len : Nat) (x : Context) : Context :=
  { x with c := arg ^^^ ones, ptr := addr, rem := len, seq := .cGuard, job := some i }

/-- `C32C.UPDATE` (R120, R124). -/
def execC32cUpdate (ctx : Nat) (arg : Word) (addr len : Nat) (s : State) : Host.Outcome State Fault Refusal :=
  accept ctx addr len (loadCrc32c (.c32cUpdate ctx arg addr len) arg addr len) s

end Sys2Proof.Machine
end

