-- ==== Sys2Proof/Machine/Dispatch.lean ====
section
/-! DEFINITION. Which meaning each command has: the accept step of a legal command (30_encoding.md rule R57). The steps that follow it are
taken by Machine/Sequencer.lean. -/

namespace Sys2Proof.Machine

def exec (i : Instr) (s : State) : Host.Outcome State Fault Refusal :=
  match i with
  | .bsMpeg2 ctx addr len => Sys2Proof.Machine.execBsMpeg2 ctx addr len s
  | .bsXfer ctx addr len => Sys2Proof.Machine.execBsXfer ctx addr len s
  | .bsAixm ctx addr len => Sys2Proof.Machine.execBsAixm ctx addr len s
  | .bsiMpeg2 ctx arg addr len => Sys2Proof.Machine.execBsiMpeg2 ctx arg addr len s
  | .bsiXfer ctx arg addr len => Sys2Proof.Machine.execBsiXfer ctx arg addr len s
  | .bsiAixm ctx arg addr len => Sys2Proof.Machine.execBsiAixm ctx arg addr len s
  | .c32cUpdate ctx arg addr len => Sys2Proof.Machine.execC32cUpdate ctx arg addr len s

end Sys2Proof.Machine
end

