-- ==== Sys2Proof/Machine/Sequencer.lean ====
section
/-! DEFINITION. One turn of one context (R15, R20), one event, and which event comes next. Machine/Step.lean only calls these. -/

namespace Sys2Proof.Machine

/-- The code of the response to a command the decoder refuses (R153). -/
def errCodeOf : DecodeError → ErrCode
  | .illegalCommand _ => .illegalCommand

/-- The accept step of an `IDLE` context (R57): decode `OP`; if it is illegal, raise `IllegalCommand`; otherwise run the command's own accept
step. With no command for this context at the port the step is not enabled and the turn passes. -/
def acceptStep (c : Nat) (s : State) : Host.Outcome State Fault Refusal :=
  match s.nextCommand c with
  | none => .next s
  | some k =>
    match decode k with
    | .ok i => exec i s
    | .error e => .next (s.raise c (errCodeOf e))

/-- A turn of context `c`: the one step its `SEQ` enables (R15). -/
def turn (c : Nat) (s : State) : Host.Outcome State Fault Refusal :=
  match s.ctx? c with
  | none => .next s
  | some x =>
    match x.seq with
    | .idle => acceptStep c s
    | .bsRun => bitSerialStep c x s
    | .cGuard => .next (guardStep c x s)
    | .cBuild => .next (buildStep c x s)
    | .cHead => headStep c x s
    | .cFold => foldPhaseStep c x s
    | .cTail => tailStep c x s

/-- What an event does. A host write into the message of an unanswered command has no move (R176, 93_implementation_defined.md U3). -/
def happen (e : Event) (s : State) : Host.Outcome State Fault Refusal :=
  match e with
  | .turn c => turn c s
  | .present k => .next (s.present k)
  | .hostWrite a b => if s.inFlight a then .refused (.messageWritten a) else .next { s with mem := s.mem.write a b }
  | .reset => .next s.resetBlock

/-- The event that comes next and the state without it: the first of the list, or, when the list is empty, a turn of a freely chosen
context (R20; assumption log 3). -/
def nextEvent (s : State) : Event × State :=
  match s.events with
  | e :: es => (e, { s with events := es })
  | [] => (.turn (Config.freeTurn s.freeCtr), { s with freeCtr := s.freeCtr + 1 })

/-- Context 0 made ready to take command `k` at the very next step. -/
def State.withCommandNext (s : State) (k : Command) : State :=
  { s with
    ctxs := s.ctxs.modify 0 fun x => { x with seq := .idle, job := none }
    port := k :: s.port
    events := .turn 0 :: s.events }

end Sys2Proof.Machine
end

