-- ==== Sys2Proof/Machine/Step.lean ====
section
/-! DEFINITION. One step of the machine: the next event happens (R20). -/

namespace Sys2Proof.Machine

/-- One step. -/
def step (s : State) : Host.Outcome State Fault Refusal := happen (nextEvent s).1 (nextEvent s).2

/-- `s` with the command of an opcode-table word at the front of the command port, context 0 `IDLE`, and the next turn context 0's, so that
the very next step decodes and runs exactly that command (assumption log 12). -/
def State.withFetchWord (s : State) (nbits w : Nat) : State := s.withCommandNext (commandOfWord s.aw nbits w)

end Sys2Proof.Machine
end

