-- ==== Sys2Proof/Safety.lean ====
section
/-! DEFINITION. What claims speak of: the result the spec gives each command, when its operands are in range, the invariants of R25 and the
stronger one that a proof carries from step to step, and runs along a given order of turns. Nothing here is used by the machine. -/

namespace Sys2Proof

open Machine

/-! ### What a command asks for -/

/-- For a bit-serial command: its variant tag, its initial value and its polynomial (R70, R75, R76). None for `C32C.UPDATE`. -/
def Instr.bitSerial? : Instr → Option (BitVec 2 × Word × Word)
  | .bsMpeg2 _ _ _ => some (0#2, 0xFFFFFFFF#32, 0x04C11DB7#32)
  | .bsXfer _ _ _ => some (1#2, 0x00000000#32, 0x000000AF#32)
  | .bsAixm _ _ _ => some (2#2, 0x00000000#32, 0x814141AB#32)
  | .bsiMpeg2 _ arg _ _ => some (0#2, arg, 0x04C11DB7#32)
  | .bsiXfer _ arg _ _ => some (1#2, arg, 0x000000AF#32)
  | .bsiAixm _ arg _ _ => some (2#2, arg, 0x814141AB#32)
  | .c32cUpdate _ _ _ _ => none

/-- The message of a command: `Mem(ADDR), ..., Mem(ADDR+LEN-1)` (R55). -/
def Instr.msg (i : Instr) (m : Memory) : List Byte := m.message i.addr i.len

/-- The column `result` of the table of R55. -/
def Instr.result (i : Instr) (m : Memory) : Word :=
  match i with
  | .bsMpeg2 _ _ _ => bscrc 0xFFFFFFFF#32 0x04C11DB7#32 (i.msg m)
  | .bsXfer _ _ _ => bscrc 0x00000000#32 0x000000AF#32 (i.msg m)
  | .bsAixm _ _ _ => bscrc 0x00000000#32 0x814141AB#32 (i.msg m)
  | .bsiMpeg2 _ arg _ _ => bscrc arg 0x04C11DB7#32 (i.msg m)
  | .bsiXfer _ arg _ _ => bscrc arg 0x000000AF#32 (i.msg m)
  | .bsiAixm _ arg _ _ => bscrc arg 0x814141AB#32 (i.msg m)
  | .c32cUpdate _ arg addr _ => c32c arg addr (i.msg m)

/-- The operands of a command are bad, in the words of R155: `LEN != 0` and the range runs past `2^AW` or holds an address that is not
`Valid`. -/
def BadRange (aw : Nat) (m : Memory) (addr len : Nat) : Prop :=
  len ≠ 0 ∧ (2 ^ aw < addr + len ∨ ∃ a, addr ≤ a ∧ a < addr + len ∧ m.valid a = false)

/-- An address and a count that fit their `AW` bits (R50): what a command at the port always has. -/
structure Fits (aw addr len : Nat) : Prop where
  addr : addr < 2 ^ aw
  len : len < 2 ^ aw

/-- Parameters that R3 allows: `AW >= 4`, `NCTX >= 1`, and a message memory in canonical form with no address outside `[0, 2^AW)`. -/
structure Machine.Platform.Legal (p : Machine.Platform) : Prop where
  width : 4 ≤ p.aw
  contexts : 1 ≤ p.nctx
  canonical : p.mem.wf = true
  memory : p.mem.within p.aw = true

/-- Context `c`, whose registers are `x`, can take command `i` at its next turn: it is `IDLE`, `i` is what the decoder reads from the
command it would take from the port, and the operands fit their fields and are good (R50, R57). -/
structure CanTake (s : State) (c : Nat) (x : Context) (i : Instr) : Prop where
  context : s.ctx? c = some x
  idle : x.seq = .idle
  command : ∃ k, s.nextCommand c = some k ∧ decode k = .ok i
  fits : Fits s.aw i.addr i.len
  operands : ¬ BadRange s.aw s.mem i.addr i.len

/-! ### The serial form of the bit-serial unit (R87) -/

/-- One bit of the serial form: feedback is register bit 31 XOR the message bit. -/
def serialBit (p : Word) (r : Word) (d : Bool) : Word := if r.msb ^^ d then (r <<< 1) ^^^ p else r <<< 1

/-- A byte fed in serially, bit 7 first. -/
def serialAbsorb (r : Word) (b : Byte) (p : Word) : Word :=
  [b.getLsbD 7, b.getLsbD 6, b.getLsbD 5, b.getLsbD 4, b.getLsbD 3, b.getLsbD 2, b.getLsbD 1, b.getLsbD 0].foldl (serialBit p) r

/-! ### Invariants -/

/-- The six invariants of R25, (a) to (f), in its own words. -/
structure RuleR25 (s : State) : Prop where
  /-- (a), first half. -/
  atMostOneBuilder : ∀ m n x y, s.ctx? m = some x → s.ctx? n = some y → x.seq = .cBuild → y.seq = .cBuild → m = n
  /-- (a), second half. -/
  builderIffBuilding : (∃ n x, s.ctx? n = some x ∧ x.seq = .cBuild) ↔ s.tblState = .building
  /-- (b). -/
  builtSoFar : s.tblState = .building → ∀ i : BitVec 12, i.toNat < s.tblIdx.toNat →
    s.table.get (i.extractLsb' 8 3) (i.extractLsb' 0 8) = tabAt (i.extractLsb' 8 3) (i.extractLsb' 0 8)
  /-- (c). -/
  readyIsFinal : s.tblState = .ready → ∀ k n, s.table.get k n = tabAt k n
  /-- (d). -/
  phasesNeedReady : ∀ n x, s.ctx? n = some x → x.seq = .cHead ∨ x.seq = .cFold ∨ x.seq = .cTail → s.tblState = .ready
  /-- (e), with `PTR` read as `2^AW` when it has wrapped to 0 at `REM = 0`. -/
  cursor : ∀ n x, s.ctx? n = some x → x.seq ≠ .idle → ∃ i, x.job = some i ∧
    (x.ptr + x.rem = i.addr + i.len ∨ (x.rem = 0 ∧ x.ptr = 0 ∧ i.addr + i.len = 2 ^ s.aw))
  /-- (f), first half. -/
  foldAligned : ∀ n x, s.ctx? n = some x → x.seq = .cFold → 8 ≤ x.rem → x.ptr % 8 = 0
  /-- (f), second half. -/
  tailShort : ∀ n x, s.ctx? n = some x → x.seq = .cTail → x.rem ≤ 7

/-- How many message bytes the command in progress has consumed. -/
def consumed (i : Instr) (x : Context) : Nat := i.len - x.rem

/-- What holds of context `n` while command `i` is in progress in it: the cursor is inside the message, and the working register holds the
CRC of the bytes consumed so far. -/
structure JobInv (aw : Nat) (m : Memory) (n : Nat) (i : Instr) (x : Context) : Prop where
  routed : i.ctx = n
  fits : Fits aw i.addr i.len
  operands : ¬ BadRange aw m i.addr i.len
  left : x.rem ≤ i.len
  cursor : x.ptr = advance aw i.addr (i.len - x.rem)
  bitSerial : ∀ tag init p, i.bitSerial? = some (tag, init, p) →
    x.seq = .bsRun ∧ x.var = tag ∧ x.r = bscrc init p (m.message i.addr (consumed i x))
  tableDriven : ∀ ctx arg addr len, i = .c32cUpdate ctx arg addr len →
    (x.seq = .cGuard ∨ x.seq = .cBuild ∨ x.seq = .cHead ∨ x.seq = .cFold ∨ x.seq = .cTail) ∧
    x.c = (m.message addr (consumed i x)).foldl (cbyte tabAt) (arg ^^^ ones)
  beforeHead : x.seq = .cGuard ∨ x.seq = .cBuild → x.rem = i.len
  foldAligned : x.seq = .cFold → x.rem = 0 ∨ x.ptr % 8 = 0
  tailShort : x.seq = .cTail → x.rem ≤ 7

/-- What holds of context `n`: `IDLE` exactly when no command is in progress, and `JobInv` of the one in progress. -/
def ContextInv (aw : Nat) (m : Memory) (n : Nat) (x : Context) : Prop :=
  match x.job with
  | none => x.seq = .idle
  | some i => x.seq ≠ .idle ∧ JobInv aw m n i x

/-- The invariant every step keeps. -/
structure Inv (s : State) : Prop where
  /-- `AW >= 4` (R3). -/
  width : 4 ≤ s.aw
  memory : s.mem.wf = true
  space : s.mem.within s.aw = true
  /-- `PTR` and `REM` are `AW` bits wide (R14). -/
  cursors : ∀ n x, s.ctx? n = some x → x.ptr < 2 ^ s.aw ∧ x.rem < 2 ^ s.aw
  /-- `ADDR` and `LEN` of a command at the port are `AW` bits wide (R50). -/
  port : ∀ k ∈ s.port, Fits s.aw k.addr k.len
  contexts : s.ctxs ≠ []
  jobs : ∀ n x, s.ctx? n = some x → ContextInv s.aw s.mem n x
  oneBuilder : ∀ m n x y, s.ctx? m = some x → s.ctx? n = some y → x.seq = .cBuild → y.seq = .cBuild → m = n
  builderIff : (∃ n x, s.ctx? n = some x ∧ x.seq = .cBuild) ↔ s.tblState = .building
  index : s.tblIdx.toNat ≤ 2048
  partial_ : s.tblState = .building → ∀ i : BitVec 12, i.toNat < s.tblIdx.toNat →
    s.table.get (entryRow i) (entryIndex i) = tabAt (entryRow i) (entryIndex i)
  final : s.tblState = .ready → ∀ k n, s.table.get k n = tabAt k n
  pastGuard : ∀ n x, s.ctx? n = some x → x.seq = .cHead ∨ x.seq = .cFold ∨ x.seq = .cTail → s.tblState = .ready

/-! ### Runs -/

/-- The state that a step reaches, put through a function; a stop stays as it is. -/
def mapNext (f : State → State) : Host.Outcome State Fault Refusal → Host.Outcome State Fault Refusal
  | .next s => .next (f s)
  | .fault r => .fault r
  | .refused r => .refused r

/-- `n` steps of the machine, stopping at the first fault or refusal. -/
def runSteps : Nat → State → Host.Outcome State Fault Refusal
  | 0, s => .next s
  | n + 1, s =>
    match step s with
    | .next t => runSteps n t
    | .fault r => .fault r
    | .refused r => .refused r

/-- The machine run for as many steps as the list has turns, with those turns as its next events. -/
def runTurns (s : State) (cs : List Nat) : Host.Outcome State Fault Refusal :=
  runSteps cs.length { s with events := cs.map Event.turn ++ s.events }

/-- The number of commands in progress. -/
def jobsInProgress (s : State) : Nat := s.ctxs.countP fun x => x.job.isSome

/-- At most how many turns of its own a context still needs before its command is answered, not counting turns in which it is held (R180). -/
def workLeft (s : State) (x : Context) : Nat :=
  match x.seq with
  | .idle => 0
  | .bsRun => x.rem + 1
  | .cTail => x.rem + 1
  | .cFold => x.rem + 2
  | .cHead => x.rem + 3
  | .cBuild => (2049 - s.tblIdx.toNat) + (x.rem + 3)
  | .cGuard => if s.tblState = .ready then x.rem + 4 else 2050 + (x.rem + 3)

/-- The three step counts of R136. -/
def headCount (addr len : Nat) : Nat := min len ((8 - addr % 8) % 8)

/-- See `headCount`. -/
def foldCount (addr len : Nat) : Nat := (len - headCount addr len) / 8

/-- See `headCount`. -/
def tailCount (addr len : Nat) : Nat := len - headCount addr len - 8 * foldCount addr len

end Sys2Proof
end

