-- ==== Sys2Proof/Certificates/Slice0/Obligations.lean ====
section
/-! DEFINITION. The statements for the provers. Each docstring names the rule of spec/ it formalises. Words used in them: a turn is one step
of one context; a command is taken when its accept step succeeds; `ones` is `0xFFFFFFFF`. -/

open Sys2Proof Sys2Proof.Machine

/-! ### Encoding -/

/-- Every decoded command, with every operand at every value, comes back from its encoding, through the fields, and at every `AW` whose
fields hold `ADDR` and `LEN` through one number (R50, R54, R55; the order of the fields in that number is the model's, assumption
log 5). -/
def Obligations.EncodeThenDecodeIsIdentity : Prop :=
  ∀ i : Instr, decode (encode i) = .ok i ∧
    ∀ aw, i.ctx = 0 → Fits aw i.addr i.len → decodeWord aw (commandBits aw) (wordOfCommand aw (encode i)) = some i

/-- A command that decodes is determined by its fields, and only `ARG` of a class 0 command is dropped: any value of it is accepted (R54,
R55). -/
def Obligations.DecodeDropsOnlyArgOfClassBs : Prop :=
  ∀ k : Command, ∀ i : Instr, decode k = .ok i →
    (encode i).ctx = k.ctx ∧ (encode i).op = k.op ∧ (encode i).addr = k.addr ∧ (encode i).len = k.len ∧
    (opClass k.op ≠ 0#4 → (encode i).arg = k.arg) ∧
    (opClass k.op = 0#4 → ∀ a : Word, decode { k with arg := a } = .ok i)

/-- The illegal values of `OP` are those with `CLASS >= 3`, or `OP[3:2] != 0`, or `CLASS <= 1` and `TAG = 3`, or `CLASS = 2` and `TAG != 0`;
there are 249 (R51, R53, R56). -/
def Obligations.ReservedOpcodesAreExactlyTheIllegalOnes : Prop :=
  (∀ k : Command, decode k = .error (.illegalCommand k.op) ↔
    (3 ≤ (opClass k.op).toNat ∨ opZero k.op ≠ 0#2 ∨ ((opClass k.op).toNat ≤ 1 ∧ opTag k.op = 3#2) ∨
      (opClass k.op = 2#4 ∧ opTag k.op ≠ 0#2))) ∧
  ((List.range 256).filter fun o => decide (decodeTableWord 8 o = none)).length = 249

/-- The seven words of the opcode table decode to the seven commands (R55). -/
def Obligations.OpcodeTableWordsDecode : Prop :=
  decodeTableWord 8 0b00000000 = some (.bsMpeg2 0 0 0) ∧
  decodeTableWord 8 0b00000001 = some (.bsXfer 0 0 0) ∧
  decodeTableWord 8 0b00000010 = some (.bsAixm 0 0 0) ∧
  decodeTableWord 8 0b00010000 = some (.bsiMpeg2 0 0#32 0 0) ∧
  decodeTableWord 8 0b00010001 = some (.bsiXfer 0 0#32 0 0) ∧
  decodeTableWord 8 0b00010010 = some (.bsiAixm 0 0#32 0 0) ∧
  decodeTableWord 8 0b00100000 = some (.c32cUpdate 0 0#32 0 0)

/-! ### The accept step and the faults -/

/-- When the next event is a turn of an `IDLE` context whose command at the port decodes to `i`, the step is `exec` of `i` at the state with
that event gone (R57). -/
def Obligations.StepRunsTheDecodedCommand : Prop :=
  ∀ (s : State) (es : List Event) (c : Nat) (x : Context) (k : Command) (i : Instr),
    s.events = .turn c :: es → s.ctx? c = some x → x.seq = .idle → s.nextCommand c = some k → decode k = .ok i →
    step s = exec i { s with events := es }

/-- `withFetchWord` makes the very next step run the command of the word, whatever the state was, as long as it has a context 0 (the
model's own helper, assumption log 12). At the default `AW`, `decodeWord` is `decodeTableWord`. -/
def Obligations.FetchWordIsRunByTheNextStep : Prop :=
  ∀ (s : State) (x : Context) (nbits w : Nat) (i : Instr), s.ctx? 0 = some x → decodeWord s.aw nbits w = some i →
    step (s.withFetchWord nbits w) =
      exec i { s with ctxs := s.ctxs.set 0 { x with seq := .idle, job := none }, port := commandOfWord s.aw nbits w :: s.port }

/-- `IllegalCommand` (R153): an `OP` that encodes no command is refused whatever the other fields hold (so before any operand check, R156).
The response carries status 1, the command leaves the port, and nothing else changes. -/
def Obligations.IllegalCommandIsRefusedAndChangesNothing : Prop :=
  ∀ (s : State) (es : List Event) (c : Nat) (x : Context) (k : Command),
    s.events = .turn c :: es → s.ctx? c = some x → x.seq = .idle → s.nextCommand c = some k → (∀ i : Instr, (encode i).op ≠ k.op) →
    step s = .next { s with
      events := es
      port := s.port.eraseP fun k => k.ctx == c
      outbox := s.outbox ++ [{ ctx := c, resp := .err .illegalCommand }] } ∧
    (Response.err .illegalCommand).status = 1#2

/-- `InvalidArgument` (R155): for each of the seven commands, raised exactly when `LEN != 0` and `ADDR + LEN > 2^AW` (as integers) or some
address of the range is not `Valid`; then the response carries status 2, the command leaves the port and nothing else changes. Otherwise
the command is taken with no response yet. -/
def Obligations.BadOperandsAreRefusedAndChangeNothing : Prop :=
  ∀ (i : Instr) (s : State) (x : Context), s.ctx? i.ctx = some x → x.seq = .idle →
    ((i.len ≠ 0 ∧ (2 ^ s.aw < i.addr + i.len ∨
        ∃ a, i.addr ≤ a ∧ a < i.addr + i.len ∧ s.mem.valid a = false)) →
      exec i s = .next { s with
        port := s.port.eraseP fun k => k.ctx == i.ctx
        outbox := s.outbox ++ [{ ctx := i.ctx, resp := .err .invalidArgument }] } ∧
      (Response.err .invalidArgument).status = 2#2) ∧
    (¬ (i.len ≠ 0 ∧ (2 ^ s.aw < i.addr + i.len ∨
        ∃ a, i.addr ≤ a ∧ a < i.addr + i.len ∧ s.mem.valid a = false)) →
      ∃ t y, exec i s = .next t ∧ t.outbox = s.outbox ∧ t.ctx? i.ctx = some y ∧ y.seq ≠ .idle)

/-- Class BS completes its accept step (R57, R75): with good operands, `VAR <- TAG; R <- Init(TAG); PTR <- ADDR; REM <- LEN; SEQ <- BS_RUN`,
the command leaves the port, and nothing else changes (`job` is the model's own field, assumption log 6). -/
def Obligations.ClassBsAcceptLoadsTheFixedInitialValue : Prop :=
  ∀ (s : State) (c : Nat) (x : Context) (addr len : Nat), s.ctx? c = some x → x.seq = .idle → ¬ BadRange s.aw s.mem addr len →
    exec (.bsMpeg2 c addr len) s = .next { s with
      port := s.port.eraseP fun k => k.ctx == c
      ctxs := s.ctxs.set c { x with
        var := 0#2, r := 0xFFFFFFFF#32, ptr := addr, rem := len, seq := .bsRun, job := some (.bsMpeg2 c addr len) } } ∧
    exec (.bsXfer c addr len) s = .next { s with
      port := s.port.eraseP fun k => k.ctx == c
      ctxs := s.ctxs.set c { x with
        var := 1#2, r := 0x00000000#32, ptr := addr, rem := len, seq := .bsRun, job := some (.bsXfer c addr len) } } ∧
    exec (.bsAixm c addr len) s = .next { s with
      port := s.port.eraseP fun k => k.ctx == c
      ctxs := s.ctxs.set c { x with
        var := 2#2, r := 0x00000000#32, ptr := addr, rem := len, seq := .bsRun, job := some (.bsAixm c addr len) } }

/-- Class BSI completes its accept step (R57, R76): as class BS, with `R <- ARG`, loaded as given with no complement (`job` is
the model's own field, assumption log 6). -/
def Obligations.ClassBsiAcceptLoadsTheArgument : Prop :=
  ∀ (s : State) (c : Nat) (x : Context) (arg : Word) (addr len : Nat), s.ctx? c = some x → x.seq = .idle → ¬ BadRange s.aw s.mem addr len →
    exec (.bsiMpeg2 c arg addr len) s = .next { s with
      port := s.port.eraseP fun k => k.ctx == c
      ctxs := s.ctxs.set c { x with
        var := 0#2, r := arg, ptr := addr, rem := len, seq := .bsRun, job := some (.bsiMpeg2 c arg addr len) } } ∧
    exec (.bsiXfer c arg addr len) s = .next { s with
      port := s.port.eraseP fun k => k.ctx == c
      ctxs := s.ctxs.set c { x with
        var := 1#2, r := arg, ptr := addr, rem := len, seq := .bsRun, job := some (.bsiXfer c arg addr len) } } ∧
    exec (.bsiAixm c arg addr len) s = .next { s with
      port := s.port.eraseP fun k => k.ctx == c
      ctxs := s.ctxs.set c { x with
        var := 2#2, r := arg, ptr := addr, rem := len, seq := .bsRun, job := some (.bsiAixm c arg addr len) } }

/-- `C32C.UPDATE` completes its accept step (R57, R120): `C <- ARG ^ 0xFFFFFFFF; PTR <- ADDR; REM <- LEN; SEQ <- C_GUARD`, before the guard
step, the command leaves the port and nothing else changes; with `ARG = 0`, `C = 0xFFFFFFFF` (`job` is the model's own field, assumption
log 6). -/
def Obligations.Crc32cAcceptLoadsTheComplement : Prop :=
  ∀ (s : State) (c : Nat) (x : Context) (arg : Word) (addr len : Nat), s.ctx? c = some x → x.seq = .idle → ¬ BadRange s.aw s.mem addr len →
    exec (.c32cUpdate c arg addr len) s = .next { s with
      port := s.port.eraseP fun k => k.ctx == c
      ctxs := s.ctxs.set c { x with
        c := arg ^^^ 0xFFFFFFFF#32, ptr := addr, rem := len, seq := .cGuard, job := some (.c32cUpdate c arg addr len) } } ∧
    (0#32 ^^^ 0xFFFFFFFF#32 : Word) = 0xFFFFFFFF#32

/-- While a context is busy its command simply waits at the port: nothing changes (R50, R177). -/
def Obligations.BusyContextLeavesTheCommandWaiting : Prop :=
  ∀ (i : Instr) (s : State) (x : Context), s.ctx? i.ctx = some x → x.seq ≠ .idle → exec i s = .next s

/-- The frame of an accept step, for all seven commands: a next state of `exec` differs from the state before in nothing but the port, the
response port and the registers of the command's own context; class BS and BSI leave `C` alone, `C32C.UPDATE` leaves `R` and `VAR`
alone; every byte of memory reads as before (R10, R31, R57). -/
def Obligations.AcceptFrame : Prop :=
  ∀ (i : Instr) (s t : State), exec i s = .next t →
    t.aw = s.aw ∧ t.tblState = s.tblState ∧ t.tblIdx = s.tblIdx ∧ t.table = s.table ∧ t.events = s.events ∧ t.freeCtr = s.freeCtr ∧
    (∀ a, t.mem.read? a = s.mem.read? a) ∧ t.ctxs.length = s.ctxs.length ∧
    (∀ n, n ≠ i.ctx → t.ctx? n = s.ctx? n) ∧
    (∀ x y, s.ctx? i.ctx = some x → t.ctx? i.ctx = some y →
      (i.bitSerial?.isSome = true → y.c = x.c) ∧ (i.bitSerial? = none → y.r = x.r ∧ y.var = x.var)) ∧
    (∀ k ∈ t.port, k ∈ s.port) ∧ (∀ k ∈ s.port, k.ctx ≠ i.ctx → k ∈ t.port)

/-! ### The bit-serial unit -/

/-- `BITSTEP` (R71): `BITSTEP(r, p) = {r[30:0], 0} ^ (r[31] ? p : 0)`, with R71's four examples. -/
def Obligations.BitStepShiftsAndXorsThePolynomial : Prop :=
  (∀ r p : Word, bitStep r p = (r.extractLsb' 0 31 ++ 0#1 : BitVec 32) ^^^ (if r.getLsbD 31 then p else 0#32)) ∧
  bitStep 0x80000000#32 0x04C11DB7#32 = 0x04C11DB7#32 ∧
  bitStep 0x7FFFFFFF#32 0x04C11DB7#32 = 0xFFFFFFFE#32 ∧
  bitStep 0xFFFFFFFF#32 0x04C11DB7#32 = 0xFB3EE249#32 ∧
  bitStep 0#32 0x04C11DB7#32 = 0#32

/-- The serial form (R87): `ABSORB(r, b, p)` is the result of feeding the bits of `b`, bit 7 first, one at a time into the feedback shift
register. -/
def Obligations.AbsorbIsTheSerialForm : Prop :=
  ∀ (r : Word) (b : Byte) (p : Word), absorb r b p = serialAbsorb r b p

/-- Resumption (R79): `BSCRC(i, p, a ++ b) = BSCRC(BSCRC(i, p, a), p, b)`. -/
def Obligations.BitSerialResumption : Prop :=
  ∀ (i p : Word) (a b : List Byte), bscrc i p (a ++ b) = bscrc (bscrc i p a) p b

/-- The source's check values of the bit-serial unit (R91): over ASCII "123456789", wherever the nine bytes lie, the three commands give
`0x0376E6E7`, `0xBD0BE338` and `0x3010BF7F`. -/
def Obligations.BitSerialCheckValues : Prop :=
  ∀ (m : Memory) (c : Nat) (addr : Nat),
    m.message addr 9 = [0x31#8, 0x32#8, 0x33#8, 0x34#8, 0x35#8, 0x36#8, 0x37#8, 0x38#8, 0x39#8] →
    (Instr.bsMpeg2 c addr 9).result m = 0x0376E6E7#32 ∧
    (Instr.bsXfer c addr 9).result m = 0xBD0BE338#32 ∧
    (Instr.bsAixm c addr 9).result m = 0x3010BF7F#32

/-- The `ABSORB` step (R74): enabled when `SEQ = BS_RUN` and `REM > 0`; one byte is consumed, `SEQ` stays, nothing else changes. `PTR` is an
`AW`-bit register (R14). -/
def Obligations.AbsorbStepConsumesOneByte : Prop :=
  ∀ (s : State) (es : List Event) (c : Nat) (x : Context) (b : Byte) (p : Word),
    s.events = .turn c :: es → s.ctx? c = some x → x.seq = .bsRun → 0 < x.rem →
    s.mem.read? x.ptr = some b →
    (x.var = 0#2 ∧ p = 0x04C11DB7#32 ∨ x.var = 1#2 ∧ p = 0x000000AF#32 ∨ x.var = 2#2 ∧ p = 0x814141AB#32) →
    step s = .next { s with
      events := es
      ctxs := s.ctxs.set c { x with r := absorb x.r b p, ptr := (x.ptr + 1) % 2 ^ s.aw, rem := x.rem - 1 } }

/-- The bit-serial finish step (R77): enabled when `SEQ = BS_RUN` and `REM = 0`; `respond OK(R); SEQ <- IDLE`, with status 0;
the model's own record of the command in progress is cleared (assumption log 6). -/
def Obligations.BitSerialFinishReturnsTheRegister : Prop :=
  ∀ (s : State) (es : List Event) (c : Nat) (x : Context),
    s.events = .turn c :: es → s.ctx? c = some x → x.seq = .bsRun → x.rem = 0 →
    step s = .next { s with
      events := es
      ctxs := s.ctxs.set c { x with seq := .idle, job := none }
      outbox := s.outbox ++ [{ ctx := c, resp := .ok x.r }] } ∧
    (Response.ok x.r).status = 0#2

/-- A bit-serial command of any of the six kinds, run by turns of its own context: `LEN + 2` turns answer
`OK(BSCRC(initial value, polynomial, msg))`; nothing shared and no other context is touched, whatever the state of the table (R75, R76,
R80 to R85, R180). `PTR` ends at `ADDR + LEN` modulo `2^AW` (R14); the model's own `job` is set and cleared again (assumption log 6). -/
def Obligations.BitSerialCommandAnswersItsCrc : Prop :=
  ∀ (s : State) (c : Nat) (x : Context) (i : Instr) (tag : BitVec 2) (init p : Word),
    CanTake s c x i → i.bitSerial? = some (tag, init, p) →
    runTurns s (List.replicate (i.len + 2) c) = .next { s with
      port := s.port.eraseP fun k => k.ctx == c
      ctxs := s.ctxs.set c { x with
        var := tag, r := bscrc init p (i.msg s.mem), ptr := (i.addr + i.len) % 2 ^ s.aw, rem := 0, seq := .idle, job := none }
      outbox := s.outbox ++ [{ ctx := c, resp := .ok (bscrc init p (i.msg s.mem)) }] }

/-- `BS.v` returns what `BSI.v` with `ARG = Init(v)` returns for the same `ADDR` and `LEN` (R78), run on the machine from the same state. -/
def Obligations.FixedAndExplicitFormsAgree : Prop :=
  ∀ (s : State) (c : Nat) (x : Context) (addr len : Nat) (i j : Instr),
    s.ctx? c = some x → x.seq = .idle → s.nextCommand c = none → Fits s.aw addr len → ¬ BadRange s.aw s.mem addr len →
    (i = .bsMpeg2 c addr len ∧ j = .bsiMpeg2 c 0xFFFFFFFF#32 addr len ∨
      i = .bsXfer c addr len ∧ j = .bsiXfer c 0x00000000#32 addr len ∨
      i = .bsAixm c addr len ∧ j = .bsiAixm c 0x00000000#32 addr len) →
    ∃ t u v, runTurns (s.present (encode i)) (List.replicate (len + 2) c) = .next t ∧
      runTurns (s.present (encode j)) (List.replicate (len + 2) c) = .next u ∧
      t.outbox = s.outbox ++ [{ ctx := c, resp := .ok v }] ∧ u.outbox = t.outbox

/-- Empty input (R86): `BSCRC(i, p, []) = i`, and a bit-serial command with `LEN = 0` answers its initial value in two turns, whatever
`ADDR` is and whatever the memory holds: no fault is possible. -/
def Obligations.BitSerialEmptyInputReturnsTheInitialValue : Prop :=
  (∀ i p : Word, bscrc i p [] = i) ∧
  ∀ (s : State) (c : Nat) (x : Context) (k : Command) (i : Instr) (tag : BitVec 2) (init p : Word),
    s.ctx? c = some x → x.seq = .idle → s.nextCommand c = some k → decode k = .ok i → i.bitSerial? = some (tag, init, p) →
    i.len = 0 →
    ∃ t, runTurns s [c, c] = .next t ∧ t.outbox = s.outbox ++ [{ ctx := c, resp := .ok init }]

/-! ### The table -/

/-- Rows 0 to 7 (R101, R102, R103): row 0 by eight reflected steps, row `k` from row `k-1`, with R102's and R103's examples. -/
def Obligations.TableValuesFollowTheRules : Prop :=
  (∀ c : Word, rstep c = (c >>> 1) ^^^ (if c.getLsbD 0 then 0x82F63B78#32 else 0#32)) ∧
  (∀ n : Byte, tab 0 n = rstep (rstep (rstep (rstep (rstep (rstep (rstep (rstep (n.setWidth 32))))))))) ∧
  (∀ (k : Nat) (n : Byte), tab (k + 1) n = tab 0 ((tab k n).extractLsb' 0 8) ^^^ (tab k n >>> 8)) ∧
  tab 0 0x00#8 = 0x00000000#32 ∧ tab 0 0x01#8 = 0xF26B8303#32 ∧ tab 0 0x80#8 = 0x82F63B78#32 ∧ tab 0 0xFF#8 = 0xAD7D5351#32 ∧
  tab 1 0x01#8 = 0x13A29877#32 ∧ tab 7 0x01#8 = 0x493C7D27#32 ∧ tab 7 0xFF#8 = 0x1F1530A5#32

/-- Every row is linear over exclusive OR, so maps 0 to 0, and each row is the byte step with a zero byte applied to the row before
(R104). -/
def Obligations.TableRowsAreLinear : Prop :=
  (∀ (k : Nat) (a b : Byte), tab k (a ^^^ b) = tab k a ^^^ tab k b) ∧ (∀ k : Nat, tab k 0#8 = 0#32) ∧
  (∀ n : Byte, tab 0 n = cbyte tabAt 0#32 n) ∧ (∀ (k : Nat) (n : Byte), tab (k + 1) n = cbyte tabAt (tab k n) 0#8)

/-- Within each row the 256 entries are pairwise different (R104). -/
def Obligations.TableRowsHaveDistinctEntries : Prop :=
  ∀ (k : BitVec 3) (a b : Byte), tabAt k a = tabAt k b → a = b

/-- The guard step (R105): one atomic test-and-set. On `EMPTY` this context becomes the builder; on `READY` it passes; on `BUILDING` it is
held, so its turn changes nothing. Message memory and `C` are untouched. -/
def Obligations.GuardStepTestsAndSets : Prop :=
  ∀ (s : State) (es : List Event) (c : Nat) (x : Context),
    s.events = .turn c :: es → s.ctx? c = some x → x.seq = .cGuard →
    (s.tblState = .empty → step s = .next { s with
      events := es, tblState := .building, tblIdx := 0#12, ctxs := s.ctxs.set c { x with seq := .cBuild } }) ∧
    (s.tblState = .ready → step s = .next { s with events := es, ctxs := s.ctxs.set c { x with seq := .cHead } }) ∧
    (s.tblState = .building → step s = .next { s with events := es })

/-- The entry-write step (R106): with `k = TBL_IDX[10:8]` and `n = TBL_IDX[7:0]`, entry `T[k][n]` gets `TAB(0, n)` in row 0 and
`T[0][T[k-1][n][7:0]] ^ (T[k-1][n] >> 8)` in the other rows, every other entry keeps its value, `TBL_IDX` goes up by 1, and nothing
else changes. -/
def Obligations.EntryWriteStoresOneEntry : Prop :=
  ∀ (s : State) (es : List Event) (c : Nat) (x : Context) (k : BitVec 3) (n : Byte),
    s.events = .turn c :: es → s.ctx? c = some x → x.seq = .cBuild → s.tblIdx.toNat < 2048 →
    k = s.tblIdx.extractLsb' 8 3 → n = s.tblIdx.extractLsb' 0 8 →
    ∃ t, step s = .next t ∧ t = { s with events := es, table := t.table, tblIdx := t.tblIdx } ∧
      t.tblIdx.toNat = s.tblIdx.toNat + 1 ∧
      (k = 0#3 → t.table.get k n = tab 0 n) ∧
      (k ≠ 0#3 → t.table.get k n =
        s.table.get 0#3 ((s.table.get (k - 1#3) n).extractLsb' 0 8) ^^^ (s.table.get (k - 1#3) n >>> 8)) ∧
      ∀ (k' : BitVec 3) (n' : Byte), (k' ≠ k ∨ n' ≠ n) → t.table.get k' n' = s.table.get k' n'

/-- The publish step (R107): enabled when `SEQ = C_BUILD` and `TBL_IDX = 2048`; `TBL_STATE <- READY; SEQ <- C_HEAD`, and nothing else
changes. After it every held context's guard step is enabled: its next turn, whenever it comes, takes it to `C_HEAD`. -/
def Obligations.PublishMakesTheTableReady : Prop :=
  ∀ (s : State) (es : List Event) (c : Nat) (x : Context),
    s.events = .turn c :: es → s.ctx? c = some x → x.seq = .cBuild → s.tblIdx.toNat = 2048 →
    ∃ t, step s = .next t ∧ t = { s with events := es, tblState := .ready, ctxs := s.ctxs.set c { x with seq := .cHead } } ∧
      ∀ n y, n ≠ c → s.ctx? n = some y → y.seq = .cGuard → turn n t = .next (t.setCtx n { y with seq := .cHead })

/-- The build (R106, R107, R108, R111, R113): from any contents of `T`, the context that finds `EMPTY` makes 1 guard step, 2048 entry-write
steps and 1 publish step, and then every entry is `TAB(k, n)`; no other context and no byte of memory is touched. -/
def Obligations.BuilderFillsTheWholeTable : Prop :=
  ∀ (s : State) (c : Nat) (x : Context), s.ctx? c = some x → x.seq = .cGuard → s.tblState = .empty →
    ∃ t, runTurns s (List.replicate 2050 c) = .next t ∧
      t = { s with tblState := .ready, tblIdx := 2048#12, table := t.table, ctxs := s.ctxs.set c { x with seq := .cHead } } ∧
      ∀ (k : BitVec 3) (n : Byte), t.table.get k n = tab k.toNat n

/-- Immutable once ready (R110): when `TBL_STATE = READY` no step writes `T`, `TBL_STATE` or `TBL_IDX`; only reset does. -/
def Obligations.ReadyTableIsImmutable : Prop :=
  ∀ s t : State, Inv s → s.tblState = .ready → step s = .next t →
    (t.tblState = .ready ∧ t.table = s.table ∧ t.tblIdx = s.tblIdx) ∨ (∃ es, s.events = .reset :: es)

/-- The only transitions of `TBL_STATE` are `EMPTY -> BUILDING` by a guard step and `BUILDING -> READY` by a publish step, and reset, which
alone leaves `READY`; and the entry count never leaves 0 to 2048 (R16, R17). -/
def Obligations.GuardOnlyMovesForward : Prop :=
  ∀ s t : State, Inv s → step s = .next t →
    (t.tblState = s.tblState ∨ (s.tblState = .empty ∧ t.tblState = .building) ∨ (s.tblState = .building ∧ t.tblState = .ready) ∨
      (∃ es, s.events = .reset :: es) ∧ t.tblState = .empty) ∧
    (s.tblState ≠ t.tblState → (∀ es, s.events ≠ .reset :: es) →
      ∃ c x, s.ctx? c = some x ∧ (x.seq = .cGuard ∧ s.tblState = .empty ∨ x.seq = .cBuild ∧ s.tblIdx.toNat = 2048)) ∧
    t.tblIdx.toNat ≤ 2048

/-- The hold ends (R175): once builder `b` has had the turns its build still needs, among any turns of any contexts in any order, the table
is ready; and no such run stops. -/
def Obligations.HoldEndsWhenTheBuilderHasHadItsTurns : Prop :=
  ∀ (s : State) (b : Nat) (x : Context) (cs : List Nat), Inv s → s.ctx? b = some x → x.seq = .cBuild →
    2049 - s.tblIdx.toNat ≤ cs.count b → ∃ t, runTurns s cs = .next t ∧ t.tblState = .ready

/-! ### The CRC-32C update -/

/-- The byte step and the fold step (R121, R122): their formulas over any table, with the register meeting only the low four bytes of the
word, and the rules' examples on the finished table. -/
def Obligations.ByteStepAndFoldStepFormulas : Prop :=
  (∀ (t : BitVec 3 → Byte → Word) (c : Word) (b : Byte),
    cbyte t c b = t 0#3 (((c ^^^ b.setWidth 32) &&& 0xFF#32).extractLsb' 0 8) ^^^ (c >>> 8)) ∧
  (∀ (t : BitVec 3 → Byte → Word) (c : Word) (w : DWord),
    cfold t c w =
      t 7#3 (c.extractLsb' 0 8 ^^^ w.extractLsb' 0 8) ^^^ t 6#3 (c.extractLsb' 8 8 ^^^ w.extractLsb' 8 8)
        ^^^ t 5#3 (c.extractLsb' 16 8 ^^^ w.extractLsb' 16 8) ^^^ t 4#3 (c.extractLsb' 24 8 ^^^ w.extractLsb' 24 8)
        ^^^ t 3#3 (w.extractLsb' 32 8) ^^^ t 2#3 (w.extractLsb' 40 8) ^^^ t 1#3 (w.extractLsb' 48 8) ^^^ t 0#3 (w.extractLsb' 56 8)) ∧
  cbyte tabAt 0#32 0x00#8 = 0#32 ∧ cbyte tabAt 0#32 0x01#8 = 0xF26B8303#32 ∧ cbyte tabAt 0xFFFFFFFF#32 0x00#8 = 0xAD82ACAE#32 ∧
  cbyte tabAt 0xFFFFFFFF#32 0xFF#8 = 0x00FFFFFF#32 ∧ cbyte tabAt 0xFFFFFFFF#32 0x31#8 = 0x6F0A661C#32 ∧
  cfold tabAt 0#32 0#64 = 0#32 ∧ cfold tabAt 0#32 1#64 = 0x493C7D27#32 ∧ cfold tabAt 1#32 0#64 = 0x493C7D27#32 ∧
  cfold tabAt 0#32 0x8000000000000000#64 = 0x82F63B78#32 ∧ cfold tabAt 0xFFFFFFFF#32 0#64 = 0x73D74D75#32 ∧
  cfold tabAt 0xFFFFFFFF#32 0x3837363534333231#64 = 0x9F787F65#32

/-- One fold equals eight byte steps, provided `T = TAB` (R128). -/
def Obligations.FoldIsEightByteSteps : Prop :=
  ∀ t : BitVec 3 → Byte → Word, (∀ k n, t k n = tab k.toNat n) → ∀ (c : Word) (w : DWord),
    cfold t c w = cbyte t (cbyte t (cbyte t (cbyte t (cbyte t (cbyte t (cbyte t (cbyte t c (w.extractLsb' 0 8)) (w.extractLsb' 8 8))
      (w.extractLsb' 16 8)) (w.extractLsb' 24 8)) (w.extractLsb' 32 8)) (w.extractLsb' 40 8)) (w.extractLsb' 48 8)) (w.extractLsb' 56 8)

/-- The byte-wise form (R127): `C32C(run, a, bytes) = C32CB(run, bytes)` for every `run`, `a` and `bytes`. -/
def Obligations.FoldingComputesTheByteWiseForm : Prop :=
  ∀ (run : Word) (a : Nat) (bytes : List Byte),
    c32c run a bytes = bytes.foldl (cbyte tabAt) (run ^^^ 0xFFFFFFFF#32) ^^^ 0xFFFFFFFF#32

/-- Incrementality (R131): a message cut at any point, the second piece at any address, continued from the first piece's result; and in
commands, `C32C.UPDATE(C32C.UPDATE(ARG, ADDR, k), ADDR + k, n - k)` answers what `C32C.UPDATE(ARG, ADDR, n)` answers. -/
def Obligations.Crc32cIsIncremental : Prop :=
  (∀ (run : Word) (a a' b : Nat) (bytes : List Byte) (k : Nat), k ≤ bytes.length →
    c32c (c32c run a (bytes.take k)) b (bytes.drop k) = c32c run a' bytes) ∧
  ∀ (aw : Nat) (m : Memory) (c d e : Nat) (arg x : Word) (addr k n : Nat), ¬ BadRange aw m addr n → k ≤ n →
    x = (Instr.c32cUpdate c arg addr k).result m →
    (Instr.c32cUpdate d x (addr + k) (n - k)).result m = (Instr.c32cUpdate e arg addr n).result m

/-- The result of any command depends on its `OP`, on `ARG` where the command uses it, and on the message bytes, and on nothing else: not on
`ADDR` as a number, not on alignment, not on the context (R88, R129, R132). -/
def Obligations.ResultDependsOnlyOnTheMessage : Prop :=
  ∀ (i j : Instr) (m n : Memory), (encode i).op = (encode j).op → (encode i).arg = (encode j).arg → i.msg m = j.msg n →
    i.result m = j.result n

/-- Empty input (R130): `C32C(run, a, []) = run`, and with the table ready a `C32C.UPDATE` with `LEN = 0` answers `OK(ARG)` in five turns,
whatever `ADDR` is and whatever the memory holds: no fault is possible. -/
def Obligations.Crc32cEmptyInputReturnsTheArgument : Prop :=
  (∀ (run : Word) (a : Nat), c32c run a [] = run) ∧
  ∀ (s : State) (c : Nat) (x : Context) (k : Command) (arg : Word) (addr : Nat),
    s.ctx? c = some x → x.seq = .idle → s.nextCommand c = some k → decode k = .ok (.c32cUpdate c arg addr 0) →
    s.tblState = .ready →
    ∃ t, runTurns s [c, c, c, c, c] = .next t ∧ t.outbox = s.outbox ++ [{ ctx := c, resp := .ok arg }]

/-- The source's check value of CRC-32C (R134): `C32C.UPDATE` with `ARG = 0` over ASCII "123456789" gives `0xE3069283`, at every address, so at
all eight alignments. -/
def Obligations.Crc32cCheckValue : Prop :=
  ∀ (m : Memory) (c : Nat) (addr : Nat),
    m.message addr 9 = [0x31#8, 0x32#8, 0x33#8, 0x34#8, 0x35#8, 0x36#8, 0x37#8, 0x38#8, 0x39#8] →
    (Instr.c32cUpdate c 0#32 addr 9).result m = 0xE3069283#32

/-- The three phases (R123), one statement for each of the six steps, with the finish step of R125: exactly the named registers change,
and at the finish the model's own `job` is cleared (assumption log 6). `PTR[2:0] = 0` is `PTR mod 8 = 0` (R35). -/
def Obligations.PhasesConsumeTheMessage : Prop :=
  ∀ (s : State) (es : List Event) (c : Nat) (x : Context), s.events = .turn c :: es → s.ctx? c = some x →
    (∀ b, (x.seq = .cHead ∧ x.ptr % 8 ≠ 0 ∨ x.seq = .cTail) → 0 < x.rem → s.mem.read? x.ptr = some b →
      step s = .next { s with
        events := es
        ctxs := s.ctxs.set c { x with c := cbyte s.table.get x.c b, ptr := (x.ptr + 1) % 2 ^ s.aw, rem := x.rem - 1 } }) ∧
    (x.seq = .cHead → (x.ptr % 8 = 0 ∨ x.rem = 0) →
      step s = .next { s with events := es, ctxs := s.ctxs.set c { x with seq := .cFold } }) ∧
    (∀ w, x.seq = .cFold → 8 ≤ x.rem → x.ptr % 8 = 0 →
      (∀ i, i < 8 → s.mem.read? (x.ptr + i) = some (w.extractLsb' (8 * i) 8)) →
      step s = .next { s with
        events := es
        ctxs := s.ctxs.set c { x with c := cfold s.table.get x.c w, ptr := (x.ptr + 8) % 2 ^ s.aw, rem := x.rem - 8 } }) ∧
    (x.seq = .cFold → x.rem < 8 →
      step s = .next { s with events := es, ctxs := s.ctxs.set c { x with seq := .cTail } }) ∧
    (x.seq = .cTail → x.rem = 0 →
      step s = .next { s with
        events := es
        ctxs := s.ctxs.set c { x with seq := .idle, job := none }
        outbox := s.outbox ++ [{ ctx := c, resp := .ok (x.c ^^^ 0xFFFFFFFF#32) }] })

/-- `C32C.UPDATE` with the table ready, run by turns of its own context: `h + f + t + 5` turns answer `OK(C32C(ARG, ADDR, msg))`; nothing
shared and no other context is touched (R124, R136, R180). `PTR` ends at `ADDR + LEN` modulo `2^AW` (R14); the model's own `job` is set and
cleared again (assumption log 6). -/
def Obligations.Crc32cCommandAnswersWhenReady : Prop :=
  ∀ (s : State) (c : Nat) (x : Context) (arg : Word) (addr len : Nat),
    CanTake s c x (.c32cUpdate c arg addr len) → s.tblState = .ready → (∀ k n, s.table.get k n = tab k.toNat n) →
    runTurns s (List.replicate (headCount addr len + foldCount addr len + tailCount addr len + 5) c) = .next { s with
      port := s.port.eraseP fun k => k.ctx == c
      ctxs := s.ctxs.set c { x with
        c := c32c arg addr (s.mem.message addr len) ^^^ 0xFFFFFFFF#32
        ptr := (addr + len) % 2 ^ s.aw, rem := 0, seq := .idle, job := none }
      outbox := s.outbox ++ [{ ctx := c, resp := .ok (c32c arg addr (s.mem.message addr len)) }] }

/-- The first `C32C.UPDATE` after reset, run by turns of its own context: 2049 more turns, the same answer, and the table is built, whatever
`T` held before and whatever `LEN` is (R112, R124, R133, R136). -/
def Obligations.Crc32cCommandBuildsThenAnswers : Prop :=
  ∀ (s : State) (c : Nat) (x : Context) (arg : Word) (addr len : Nat),
    CanTake s c x (.c32cUpdate c arg addr len) → s.tblState = .empty →
    ∃ t, runTurns s (List.replicate (headCount addr len + foldCount addr len + tailCount addr len + 5 + 2049) c) = .next t ∧
      t.outbox = s.outbox ++ [{ ctx := c, resp := .ok (c32c arg addr (s.mem.message addr len)) }] ∧
      t.tblState = .ready ∧ t.tblIdx = 2048#12 ∧ (∀ k n, t.table.get k n = tab k.toNat n) ∧
      (∃ y, t.ctx? c = some y ∧ y.seq = .idle ∧ y.r = x.r ∧ y.var = x.var) ∧
      (∀ n, n ≠ c → t.ctx? n = s.ctx? n) ∧ t.mem = s.mem ∧ t.aw = s.aw

/-! ### Memory -/

/-- `MemRead(a, 8)` (R33): `w[8i+7 : 8i] = Mem(a + i)` for `i = 0..7`, the lowest address least significant; and it answers exactly when all
eight addresses are `Valid`. -/
def Obligations.EightByteReadIsLittleEndian : Prop :=
  ∀ (m : Memory) (a : Nat),
    (∀ w, m.read8? a = some w → ∀ i, i < 8 → m.read? (a + i) = some (w.extractLsb' (8 * i) 8)) ∧
    ((∀ i, i < 8 → m.valid (a + i) = true) → ∃ w, m.read8? a = some w)

/-- The block never writes message memory (R31): only an event of the host does, and that one changes at most the byte it names, changes
no `Valid` (R3; so nothing where that address is not `Valid`: the model's choice, assumption log 11), and is refused while that byte
belongs to the message of an unanswered command (R176; the refusal is the model's form of 93_implementation_defined.md U3, assumption
log 16). -/
def Obligations.BlockNeverWritesMemory : Prop :=
  ∀ s : State,
    (∀ t, step s = .next t → (∀ a b es, s.events ≠ .hostWrite a b :: es) → t.mem = s.mem) ∧
    (∀ a b es, s.events = .hostWrite a b :: es →
      (s.inFlight a = true → step s = .refused (.messageWritten a)) ∧
      (s.inFlight a = false → ∃ t, step s = .next t ∧ t = { s with events := es, mem := t.mem } ∧
        (∀ n, n ≠ a → t.mem.read? n = s.mem.read? n) ∧ (∀ n, t.mem.valid n = s.mem.valid n) ∧
        (s.mem.valid a = true → t.mem.read? a = some b)))

/-- No over-read (R37): what a turn of a context does depends on no byte of memory outside the message of the command in progress in it. -/
def Obligations.NoByteOutsideTheMessageMatters : Prop :=
  ∀ (s : State) (c : Nat) (x : Context) (i : Instr) (m : Memory), Inv s → s.ctx? c = some x → x.job = some i →
    (∀ a, i.addr ≤ a → a < i.addr + i.len → m.read? a = s.mem.read? a) →
    turn c { s with mem := m } = mapNext (fun t => { t with mem := m }) (turn c s)

/-! ### The whole machine -/

/-- Reset state (R22), for every `AW`, `NCTX`, `Valid` and `Mem` (R3): every context `IDLE`, `TBL_STATE = EMPTY`, `TBL_IDX = 0`, and the block
has the parameters it was built with. The machine the host starts is the one with `AW = 64`, a free `NCTX >= 1` and no address `Valid`
(assumption logs 1, 2, 7). -/
def Obligations.ResetLeavesTheBlockIdle : Prop :=
  (∀ p : Platform,
    (∀ n x, (State.powerOn p).ctx? n = some x → x.seq = .idle) ∧ (State.powerOn p).tblState = .empty ∧ (State.powerOn p).tblIdx = 0#12 ∧
    (State.powerOn p).aw = p.aw ∧ (State.powerOn p).ctxs.length = p.nctx ∧ (State.powerOn p).mem = p.mem) ∧
  State.reset = State.powerOn { aw := 64, nctx := Config.nctx, mem := { cells := [] } } ∧ 1 ≤ Config.nctx

/-- Reset at any time (R171): every context goes to `IDLE`, no response is produced, a build in progress is discarded; the message memory,
which is not the block's, stays. -/
def Obligations.ResetAbandonsEveryTransaction : Prop :=
  ∀ (s : State) (es : List Event), s.events = .reset :: es →
    ∃ t, step s = .next t ∧ (∀ n x, t.ctx? n = some x → x.seq = .idle) ∧ t.ctxs.length = s.ctxs.length ∧
      t.tblState = .empty ∧ t.tblIdx = 0#12 ∧ t.outbox = s.outbox ∧ t.mem = s.mem ∧ t.events = es

/-- The invariant holds right after power-on reset, whatever legal parameters the block has (R3, R22), and so in `State.reset`. -/
def Obligations.InvariantHoldsAtReset : Prop :=
  (∀ p : Platform, p.Legal → Inv (State.powerOn p)) ∧ Inv State.reset

/-- Every step keeps the invariant: `AW >= 4`, canonical memory inside the address space, cursors and waiting operands of `AW` bits, one
builder exactly while `BUILDING`, entries written so far final, the whole table final once `READY`, no phase past the guard before that,
and in every busy context the cursor inside the message and the working register equal to the CRC of the bytes consumed so far (R25 and
what a proof of it needs). -/
def Obligations.EveryStepKeepsTheInvariant : Prop :=
  ∀ s t : State, Inv s → step s = .next t → Inv t

/-- The invariant gives R25 (a) to (f) in the rule's own words. -/
def Obligations.InvariantGivesRuleR25 : Prop :=
  ∀ s : State, Inv s → RuleR25 s

/-- Nothing faults once accepted (R150): from a state with the invariant the model never stops, except where the host breaks the duty of R176. -/
def Obligations.NothingStopsTheMachine : Prop :=
  ∀ s : State, Inv s → (∃ t, step s = .next t) ∨
    ∃ a b es, s.events = .hostWrite a b :: es ∧ s.inFlight a = true ∧ step s = .refused (.messageWritten a)

/-- Every `OK` answer is the result the table of R55 gives the command in progress, whatever the other contexts did, whoever built the table
and in whatever order the steps came (R55, R88, R132, R133). -/
def Obligations.EveryAnswerIsItsCommandsResult : Prop :=
  ∀ (s t : State) (c : Nat) (v : Word), Inv s → step s = .next t → t.outbox = s.outbox ++ [{ ctx := c, resp := .ok v }] →
    ∃ x i, s.ctx? c = some x ∧ x.job = some i ∧ v = i.result s.mem

/-- Both faults are detected in the accept step of a command and nowhere else (R150): an error answer comes from an `IDLE` context, about the
command it would have taken. -/
def Obligations.ErrorsComeOnlyFromAcceptSteps : Prop :=
  ∀ (s t : State) (c : Nat) (e : ErrCode), step s = .next t → t.outbox = s.outbox ++ [{ ctx := c, resp := .err e }] →
    ∃ x k, s.ctx? c = some x ∧ x.seq = .idle ∧ s.nextCommand c = some k ∧ t.ctxs = s.ctxs ∧
      (e = .illegalCommand ∧ (∃ d, decode k = .error d) ∨
        e = .invalidArgument ∧ ∃ i, decode k = .ok i ∧ BadRange s.aw s.mem i.addr i.len)

/-- Exactly one response for each command taken or refused (R58): no turn changes the number of commands waiting, in progress and answered
together. -/
def Obligations.OneResponseForEachCommand : Prop :=
  ∀ (s t : State) (c : Nat), Inv s → turn c s = .next t →
    t.outbox.length + jobsInProgress t + t.port.length = s.outbox.length + jobsInProgress s + s.port.length

/-- Contexts are private (R10): a turn of context `c` writes no other context, and what it does depends on no register of another. -/
def Obligations.ContextsArePrivate : Prop :=
  ∀ (s : State) (c n : Nat) (y : Context), n ≠ c →
    (∀ t, turn c s = .next t → t.ctx? n = s.ctx? n ∧ t.ctxs.length = s.ctxs.length) ∧
    turn c (s.setCtx n y) = mapNext (fun t => t.setCtx n y) (turn c s)

/-- The frame of a turn (R10, R31, R74, R105 to R107, R123): outside `C_GUARD` and `C_BUILD` the shared state stays; the port changes only in an
accept step; `R` and `VAR` change only in `IDLE` and `BS_RUN`, `C` only in `IDLE`, `C_HEAD`, `C_FOLD` and `C_TAIL`; `VAR` only in `IDLE`; memory
and the model's own event list and counter never change; at most one response is added, and only in `IDLE`, `BS_RUN` or `C_TAIL`. -/
def Obligations.TurnFrame : Prop :=
  ∀ (s t : State) (c : Nat) (x y : Context), s.ctx? c = some x → t.ctx? c = some y → turn c s = .next t →
    (x.seq ≠ .cGuard → x.seq ≠ .cBuild → t.tblState = s.tblState ∧ t.tblIdx = s.tblIdx ∧ t.table = s.table) ∧
    (x.seq ≠ .idle → t.port = s.port ∧ y.var = x.var) ∧
    (x.seq ≠ .idle → x.seq ≠ .bsRun → y.r = x.r) ∧
    (x.seq = .bsRun ∨ x.seq = .cGuard ∨ x.seq = .cBuild → y.c = x.c) ∧
    (x.seq = .cGuard ∨ x.seq = .cBuild → y.ptr = x.ptr ∧ y.rem = x.rem) ∧
    t.aw = s.aw ∧ t.mem = s.mem ∧ t.events = s.events ∧ t.freeCtr = s.freeCtr ∧
    (∃ rs, t.outbox = s.outbox ++ rs ∧ rs.length ≤ 1 ∧
      (x.seq ≠ .idle → x.seq ≠ .bsRun → x.seq ≠ .cTail → rs = []))

/-- Termination (R180): every turn of a busy context that is not held brings its answer nearer, and right after the accept step the turns left
are at most `LEN + 1` for a bit-serial command, `LEN + 4` for a `C32C.UPDATE` that finds the table ready, and 2049 more for one that does
not. -/
def Obligations.CommandsTerminate : Prop :=
  (∀ (s t : State) (c : Nat) (x y : Context), Inv s → s.ctx? c = some x → x.seq ≠ .idle →
    ¬ (x.seq = .cGuard ∧ s.tblState = .building) → turn c s = .next t → t.ctx? c = some y → workLeft t y < workLeft s x) ∧
  (∀ (s t : State) (i : Instr) (y : Context), exec i s = .next t → t.ctx? i.ctx = some y → (∃ x, s.ctx? i.ctx = some x ∧ x.seq = .idle) →
    (i.bitSerial?.isSome = true → workLeft t y ≤ i.len + 1) ∧
    (t.tblState = .ready → workLeft t y ≤ i.len + 4) ∧
    workLeft t y ≤ i.len + 4 + 2049)

/-- The parameters of R3 are arguments of the model, not state of the block: no step changes `AW`, `NCTX` or `Valid` (that a host write
changes no `Valid` is the model's choice, assumption log 11). -/
def Obligations.NoStepChangesTheParameters : Prop :=
  ∀ s t : State, step s = .next t → t.aw = s.aw ∧ t.ctxs.length = s.ctxs.length ∧ ∀ a, t.mem.valid a = s.mem.valid a

/-- The width of the port's fields (R50, R54): a presented command waits at the port with `ADDR` and `LEN` of `AW` bits, exactly as given where
they fit; nothing else changes. A number that does not fit cannot be expressed; the model drops the bits above (assumption log 1). -/
def Obligations.PresentedCommandWaitsAtThePort : Prop :=
  ∀ (s : State) (k : Command) (es : List Event), s.events = .present k :: es →
    ∃ j, step s = .next { s with events := es, port := s.port ++ [j] } ∧ Fits s.aw j.addr j.len ∧
      j.ctx = k.ctx ∧ j.op = k.op ∧ j.arg = k.arg ∧ (Fits s.aw k.addr k.len → j = k)
end

