-- ==== Sys2Proof/Laws/Crc.lean ====
section
/-! SUPPORT. The arithmetic of the table unit: the reflected step and the row-0 transform are linear over exclusive OR, and a register or a
fold word is its bytes. -/

namespace Sys2Proof.Machine

/-! ### The reflected step and the rows are linear over exclusive OR -/

theorem rstep_xor (a b : Word) : rstep (a ^^^ b) = rstep a ^^^ rstep b := by
  simp only [rstep, BitVec.getLsbD_xor, BitVec.ushiftRight_xor_distrib]
  cases a.getLsbD 0 <;> cases b.getLsbD 0 <;> simp
  · rw [BitVec.xor_assoc]
  · rw [BitVec.xor_assoc, BitVec.xor_assoc, BitVec.xor_comm (b >>> 1)]
  · generalize a >>> 1 = x
    generalize b >>> 1 = y
    generalize polyC = p
    rw [BitVec.xor_assoc x p, ← BitVec.xor_assoc p y, BitVec.xor_comm p y, BitVec.xor_assoc y p p, BitVec.xor_self]
    simp

theorem rsteps_xor (n : Nat) (a b : Word) : rsteps n (a ^^^ b) = rsteps n a ^^^ rsteps n b := by
  induction n generalizing a b with
  | zero => rfl
  | succ n ih => simp only [rsteps, rstep_xor, ih]

theorem tabRow0_xor (a b : Byte) : tabRow0 (a ^^^ b) = tabRow0 a ^^^ tabRow0 b := by
  simp only [tabRow0, BitVec.setWidth_xor, rsteps_xor]

/-- Four exclusive ORs in another order. -/
theorem xor_swap (a b c d : Word) : (a ^^^ b) ^^^ (c ^^^ d) = (a ^^^ c) ^^^ (b ^^^ d) := by
  rw [BitVec.xor_assoc, BitVec.xor_assoc, ← BitVec.xor_assoc b, BitVec.xor_comm b c, BitVec.xor_assoc c]

/-- One byte step with a zero data byte on the finished table: the "row-0 transform" of R103. -/
def zeroStep (c : Word) : Word := tabRow0 (c.setWidth 8) ^^^ (c >>> 8)

theorem zeroStep_xor (a b : Word) : zeroStep (a ^^^ b) = zeroStep a ^^^ zeroStep b := by
  simp only [zeroStep, BitVec.setWidth_xor, tabRow0_xor, BitVec.ushiftRight_xor_distrib]
  exact xor_swap _ _ _ _

/-- A byte step is the zero step of the register with the byte XORed in. -/
theorem cbyte_tabAt (c : Word) (b : Byte) : cbyte tabAt c b = zeroStep (c ^^^ b.setWidth 32) := by
  have h : (c ^^^ b.setWidth 32) >>> 8 = c >>> 8 := by
    rw [BitVec.ushiftRight_xor_distrib]
    have : (b.setWidth 32 : Word) >>> 8 = 0#32 := by
      apply BitVec.eq_of_toNat_eq
      have := b.isLt
      simp [BitVec.toNat_ushiftRight, Nat.shiftRight_eq_div_pow]
      omega
    rw [this, BitVec.xor_zero]
  simp [cbyte, zeroStep, tabAt, tab, h, BitVec.setWidth_xor]

/-- A row is the row before it put through the zero step. -/
theorem tab_succ (k : Nat) (n : Byte) : tab (k + 1) n = zeroStep (tab k n) := rfl

/-- Row 0 is the zero step of the byte itself. -/
theorem tab_zero_eq (n : Byte) : tab 0 n = zeroStep (n.setWidth 32) := by
  have h : (n.setWidth 32 : Word) >>> 8 = 0#32 := by
    apply BitVec.eq_of_toNat_eq
    have := n.isLt
    simp [BitVec.toNat_ushiftRight, Nat.shiftRight_eq_div_pow]
    omega
  simp [tab, zeroStep, h]

/-- The zero step moves a value with an empty low byte down by a byte. -/
theorem zeroStep_shift (c : Word) (h : c.setWidth 8 = 0#8) : zeroStep c = c >>> 8 := by
  simp only [zeroStep, h]
  have : tabRow0 0#8 = 0#32 := by decide
  rw [this, BitVec.zero_xor]

/-- A byte in byte position 1, 2 or 3 of the register comes down by one position in a zero step. -/
theorem zeroStep_up1 (b : Byte) : zeroStep (b.setWidth 32 <<< 8) = b.setWidth 32 := by
  rw [zeroStep_shift]
  · apply BitVec.eq_of_toNat_eq
    have := b.isLt
    simp [Nat.shiftLeft_eq, Nat.shiftRight_eq_div_pow]
    omega
  · apply BitVec.eq_of_toNat_eq
    simp

theorem zeroStep_up2 (b : Byte) : zeroStep (b.setWidth 32 <<< 16) = b.setWidth 32 <<< 8 := by
  rw [zeroStep_shift]
  · apply BitVec.eq_of_toNat_eq
    have := b.isLt
    simp [Nat.shiftLeft_eq, Nat.shiftRight_eq_div_pow]
    omega
  · apply BitVec.eq_of_toNat_eq
    simp

theorem zeroStep_up3 (b : Byte) : zeroStep (b.setWidth 32 <<< 24) = b.setWidth 32 <<< 16 := by
  rw [zeroStep_shift]
  · apply BitVec.eq_of_toNat_eq
    have := b.isLt
    simp [Nat.shiftLeft_eq, Nat.shiftRight_eq_div_pow]
    omega
  · apply BitVec.eq_of_toNat_eq
    simp

/-- A register is its four bytes. -/
theorem word_eq_bytes (c : Word) :
    c = (c.extractLsb' 0 8).setWidth 32 ^^^ (c.extractLsb' 8 8).setWidth 32 <<< 8
      ^^^ (c.extractLsb' 16 8).setWidth 32 <<< 16 ^^^ (c.extractLsb' 24 8).setWidth 32 <<< 24 := by
  apply BitVec.eq_of_getLsbD_eq
  intro i hi
  simp only [BitVec.getLsbD_xor, BitVec.getLsbD_setWidth, BitVec.getLsbD_extractLsb', BitVec.getLsbD_shiftLeft]
  have : i < 8 ∨ (8 ≤ i ∧ i < 16) ∨ (16 ≤ i ∧ i < 24) ∨ 24 ≤ i := by omega
  rcases this with h | ⟨h, h'⟩ | ⟨h, h'⟩ | h
  · simp [h, hi, show i < 16 by omega, show i < 24 by omega]
  · simp [h', hi, show ¬ i < 8 by omega, show i - 8 < 8 by omega, show i < 24 by omega, show 8 + (i - 8) = i by omega, show i - 8 < 32 by omega]
  · simp [h', hi, show ¬ i < 8 by omega, show ¬ i < 16 by omega, show i - 16 < 8 by omega, show ¬ i - 8 < 8 by omega, show 16 + (i - 16) = i by omega, show i - 16 < 32 by omega]
  · simp [hi, show ¬ i < 8 by omega, show ¬ i < 16 by omega, show ¬ i < 24 by omega, show i - 24 < 8 by omega, show ¬ i - 8 < 8 by omega, show ¬ i - 16 < 8 by omega, show 24 + (i - 24) = i by omega, show i - 24 < 32 by omega]

/-- The bit step of the bit-serial unit is linear as well, for a fixed polynomial. -/
theorem bitStep_xor (a b p : Word) : bitStep (a ^^^ b) p = bitStep a p ^^^ bitStep b p := by
  simp only [bitStep, BitVec.msb_xor, BitVec.shiftLeft_xor_distrib]
  cases a.msb <;> cases b.msb <;> simp
  · ac_rfl
  · ac_rfl
  · rw [show (a <<< 1 ^^^ p) ^^^ (b <<< 1 ^^^ p) = (a <<< 1 ^^^ b <<< 1) ^^^ (p ^^^ p) by ac_rfl, BitVec.xor_self]
    simp

/-- The bytes of an assembled word are the bytes it was assembled from, in order. -/
theorem le64_bytes (b0 b1 b2 b3 b4 b5 b6 b7 : Byte) :
    let w := le64 b0 b1 b2 b3 b4 b5 b6 b7
    w.extractLsb' 0 8 = b0 ∧ w.extractLsb' 8 8 = b1 ∧ w.extractLsb' 16 8 = b2 ∧ w.extractLsb' 24 8 = b3 ∧
    w.extractLsb' 32 8 = b4 ∧ w.extractLsb' 40 8 = b5 ∧ w.extractLsb' 48 8 = b6 ∧ w.extractLsb' 56 8 = b7 := by
  refine ⟨?_, ?_, ?_, ?_, ?_, ?_, ?_, ?_⟩ <;>
  · apply BitVec.eq_of_getLsbD_eq
    intro i hi
    simp only [le64, BitVec.getLsbD_extractLsb', BitVec.getLsbD_append, hi, decide_true, Bool.true_and]
    have : i = 0 ∨ i = 1 ∨ i = 2 ∨ i = 3 ∨ i = 4 ∨ i = 5 ∨ i = 6 ∨ i = 7 := by omega
    rcases this with rfl | rfl | rfl | rfl | rfl | rfl | rfl | rfl <;> simp

end Sys2Proof.Machine
end

