-- ==== Sys2Proof/Laws/Decode.lean ====
section
/-! SUPPORT. The layout of a command in one number: each field is where `commandOfWord` looks for it. -/

namespace Sys2Proof

/-- The five fields come back from the number they are laid out in, where `ADDR` and `LEN` fit their `AW` bits. -/
theorem commandOfWord_wordOfCommand (aw : Nat) (k : Command) (h : k.ctx = 0) (hf : Fits aw k.addr k.len) :
    commandOfWord aw (commandBits aw) (wordOfCommand aw k) = k := by
  obtain ⟨ctx, op, arg, addr, len⟩ := k
  simp only at h hf
  subst h
  obtain ⟨h3, h4⟩ := hf
  have h1 := op.isLt; have h2 := arg.isLt
  obtain ⟨N, hN⟩ : ∃ N, (2 : Nat) ^ aw = N := ⟨_, rfl⟩
  have e1 : (2 : Nat) ^ commandBits aw = 2 ^ 8 * (2 ^ 32 * (N * N)) := by
    rw [commandBits, Nat.pow_add, Nat.pow_add, hN]; ring
  have e2 : (2 : Nat) ^ (40 + aw) = 2 ^ 8 * (2 ^ 32 * N) := by rw [Nat.pow_add, hN]; ring
  rw [hN] at h3 h4
  have hv : wordOfCommand aw { ctx := 0, op := op, arg := arg, addr := addr, len := len } =
      op.toNat + 2 ^ 8 * (arg.toNat + 2 ^ 32 * (addr + N * len)) := by
    simp only [wordOfCommand, e2]; ring
  have hlt : op.toNat + 2 ^ 8 * (arg.toNat + 2 ^ 32 * (addr + N * len)) < 2 ^ 8 * (2 ^ 32 * (N * N)) := by
    have a1 : addr + N * len < N * N := by nlinarith
    have a2 : arg.toNat + 2 ^ 32 * (addr + N * len) < 2 ^ 32 * (N * N) := by nlinarith
    nlinarith
  have d1 : (op.toNat + 2 ^ 8 * (arg.toNat + 2 ^ 32 * (addr + N * len))) / 2 ^ 8 = arg.toNat + 2 ^ 32 * (addr + N * len) := by
    rw [Nat.add_mul_div_left _ _ (by decide), Nat.div_eq_of_lt h1, Nat.zero_add]
  have d2 : (op.toNat + 2 ^ 8 * (arg.toNat + 2 ^ 32 * (addr + N * len))) / 2 ^ 40 = addr + N * len := by
    rw [show (2 : Nat) ^ 40 = 2 ^ 8 * 2 ^ 32 from rfl, ← Nat.div_div_eq_div_mul, d1, Nat.add_mul_div_left _ _ (by decide),
      Nat.div_eq_of_lt h2, Nat.zero_add]
  have d3 : (op.toNat + 2 ^ 8 * (arg.toNat + 2 ^ 32 * (addr + N * len))) / 2 ^ (40 + aw) = len := by
    rw [Nat.pow_add, hN, ← Nat.div_div_eq_div_mul, d2, Nat.add_mul_div_left _ _ (by omega), Nat.div_eq_of_lt h3, Nat.zero_add]
  unfold commandOfWord
  rw [e1, hv, Nat.mod_eq_of_lt hlt, hN]
  dsimp only
  rw [d1, d2, d3]
  have r1 : BitVec.ofNat 8 (op.toNat + 2 ^ 8 * (arg.toNat + 2 ^ 32 * (addr + N * len))) = op := by
    apply BitVec.eq_of_toNat_eq; rw [BitVec.toNat_ofNat, Nat.add_mul_mod_self_left, Nat.mod_eq_of_lt h1]
  have r2 : BitVec.ofNat 32 (arg.toNat + 2 ^ 32 * (addr + N * len)) = arg := by
    apply BitVec.eq_of_toNat_eq; rw [BitVec.toNat_ofNat, Nat.add_mul_mod_self_left, Nat.mod_eq_of_lt h2]
  rw [r1, r2, Nat.add_mul_mod_self_left, Nat.mod_eq_of_lt h3, Nat.mod_eq_of_lt h4]

/-- What `decodeWord` reads, once the command in the number is known. -/
theorem decodeWord_of_eq {aw nbits w : Nat} {k : Command} {i : Instr} (h : commandOfWord aw nbits w = k) (hd : decode k = .ok i) :
    decodeWord aw nbits w = some i := by
  simp only [decodeWord, h, hd]

end Sys2Proof
end

