-- ==== Sys2Proof/Laws/Memory.lean ====
section
/-! SUPPORT. The message memory: every operation keeps the canonical form, a read after a write, what the operand check decides, and how a
message is cut into a front and a last byte. -/

namespace Sys2Proof.Machine

/-! ### Reading after writing -/

theorem Memory.lookup_writeCells (cs : List Host.Cell) (a n : Nat) (b : Byte) :
    Memory.lookup (Memory.writeCells cs a b) n =
      if n = a ∧ (Memory.lookup cs a).isSome then some b else Memory.lookup cs n := by
  induction cs with
  | nil => simp [writeCells, lookup]
  | cons cell cs ih =>
    obtain ⟨a', b'⟩ := cell
    by_cases h : a' = a
    · subst h
      by_cases hn : n = a' <;> simp [writeCells, lookup, hn, eq_comm]
    · by_cases hn : a' = n
      · subst hn
        simp [writeCells, lookup, h]
      · simp [writeCells, lookup, h, hn, ih]

/-- A read after a host write: the written byte where the address is `Valid`, everything else as before. -/
theorem Memory.read?_write (m : Memory) (a n : Nat) (b : Byte) :
    (m.write a b).read? n = if n = a ∧ m.valid a = true then some b else m.read? n :=
  Memory.lookup_writeCells m.cells a n b

/-- The host's writes never change which addresses are `Valid`. -/
theorem Memory.valid_write (m : Memory) (a n : Nat) (b : Byte) : (m.write a b).valid n = m.valid n := by
  unfold Memory.valid
  rw [Memory.read?_write]
  split
  · rename_i h
    obtain ⟨rfl, h⟩ := h
    exact h.symm
  · rfl

/-! ### The canonical form -/

/-- Every listed address of a memory inside the address space is below `2^AW`, and so is every `Valid` one. -/
theorem Memory.lt_of_valid {aw : Nat} {m : Memory} {a : Nat} (h : m.within aw = true) (hv : m.valid a = true) : a < 2 ^ aw := by
  obtain ⟨cs⟩ := m
  simp only [Memory.valid, Memory.read?, Memory.within] at h hv
  induction cs with
  | nil => simp [lookup] at hv
  | cons cell cs ih =>
    obtain ⟨a', b'⟩ := cell
    simp only [List.all_cons, Bool.and_eq_true, decide_eq_true_eq] at h
    by_cases ha : a' = a
    · exact ha ▸ h.1
    · exact ih h.2 (by simpa [lookup, ha] using hv)

theorem Memory.all_writeCells (q : Nat → Bool) (cs : List Host.Cell) (a : Nat) (b : Byte) :
    ((Memory.writeCells cs a b).all fun cell => q cell.1) = cs.all fun cell => q cell.1 := by
  induction cs with
  | nil => rfl
  | cons cell cs ih =>
    obtain ⟨a', b'⟩ := cell
    simp only [writeCells]
    split
    · rfl
    · simp [ih]

/-- A host write stays inside the address space. -/
theorem Memory.write_within (aw : Nat) (m : Memory) (a : Nat) (b : Byte) : (m.write a b).within aw = m.within aw :=
  Memory.all_writeCells (fun a => decide (a < 2 ^ aw)) m.cells a b

theorem Memory.all_placeCells (q : Nat → Bool) (cs : List Host.Cell) (a : Nat) (b : Byte) (ha : q a = true)
    (h : (cs.all fun cell => q cell.1) = true) : ((Memory.placeCells cs a b).all fun cell => q cell.1) = true := by
  induction cs with
  | nil => simp [placeCells, ha]
  | cons cell cs ih =>
    obtain ⟨a', b'⟩ := cell
    simp only [List.all_cons, Bool.and_eq_true] at h
    simp only [placeCells]
    split
    · simp [ha, h.1, h.2]
    · split
      · simp [ha, h.2]
      · simp only [List.all_cons, h.1, Bool.true_and]
        exact ih h.2

/-- Setting up one address of the address space stays inside it. -/
theorem Memory.place_within (aw : Nat) (m : Memory) (a : Nat) (b : Byte) (ha : a < 2 ^ aw) (h : m.within aw = true) :
    (m.place a b).within aw = true :=
  Memory.all_placeCells (fun a => decide (a < 2 ^ aw)) m.cells a b (decide_eq_true ha) h

/-- The first address of a list of cells lies above `lo`, where there is one. -/
def Memory.headAbove (lo : Nat) : List Host.Cell → Bool
  | [] => true
  | (a, _) :: _ => decide (lo < a)

theorem Memory.wfCells_cons (a : Nat) (b : Byte) (cs : List Host.Cell) :
    Memory.wfCells ((a, b) :: cs) = true ↔
      Memory.headAbove a cs = true ∧ Memory.wfCells cs = true := by
  cases cs with
  | nil => simp [wfCells, headAbove]
  | cons cell cs =>
    obtain ⟨a', b'⟩ := cell
    simp only [wfCells, headAbove, Bool.and_eq_true, decide_eq_true_eq]

theorem Memory.headAbove_writeCells (lo a : Nat) (b : Byte) (cs : List Host.Cell) :
    Memory.headAbove lo (Memory.writeCells cs a b) = Memory.headAbove lo cs := by
  cases cs with
  | nil => rfl
  | cons cell cs =>
    obtain ⟨a', b'⟩ := cell
    simp only [writeCells]
    split <;> rfl

theorem Memory.wfCells_writeCells (cs : List Host.Cell) (a : Nat) (b : Byte) (h : Memory.wfCells cs = true) :
    Memory.wfCells (Memory.writeCells cs a b) = true := by
  induction cs with
  | nil => rfl
  | cons cell cs ih =>
    obtain ⟨a', b'⟩ := cell
    obtain ⟨h2, h3⟩ := (Memory.wfCells_cons a' b' cs).1 h
    simp only [writeCells]
    split
    · exact (Memory.wfCells_cons a' b cs).2 ⟨h2, h3⟩
    · exact (Memory.wfCells_cons a' b' _).2 ⟨by rw [Memory.headAbove_writeCells]; exact h2, ih h3⟩

/-- A host write keeps the canonical form. -/
theorem Memory.write_wf (m : Memory) (a : Nat) (b : Byte) (h : m.wf = true) : (m.write a b).wf = true :=
  Memory.wfCells_writeCells m.cells a b h

theorem Memory.headAbove_placeCells (lo a : Nat) (b : Byte) (cs : List Host.Cell) (ha : lo < a)
    (h : Memory.headAbove lo cs = true) : Memory.headAbove lo (Memory.placeCells cs a b) = true := by
  cases cs with
  | nil => simpa [placeCells, headAbove] using ha
  | cons cell cs =>
    obtain ⟨a', b'⟩ := cell
    simp only [placeCells]
    split
    · simpa [headAbove] using ha
    · split
      · simpa [headAbove] using ha
      · simpa [headAbove] using h

theorem Memory.wfCells_placeCells (cs : List Host.Cell) (a : Nat) (b : Byte)
    (h : Memory.wfCells cs = true) : Memory.wfCells (Memory.placeCells cs a b) = true := by
  induction cs with
  | nil => rfl
  | cons cell cs ih =>
    obtain ⟨a', b'⟩ := cell
    obtain ⟨h2, h3⟩ := (Memory.wfCells_cons a' b' cs).1 h
    simp only [placeCells]
    split
    · rename_i hlt
      exact (Memory.wfCells_cons a b _).2 ⟨by simpa [headAbove] using hlt, h⟩
    · split
      · rename_i heq
        subst heq
        exact (Memory.wfCells_cons a b cs).2 ⟨h2, h3⟩
      · rename_i hlt hne
        exact (Memory.wfCells_cons a' b' _).2
          ⟨Memory.headAbove_placeCells a' a b cs (by omega) h2, ih h3⟩

/-- Setting up one address of the platform keeps the canonical form. -/
theorem Memory.place_wf (m : Memory) (a : Nat) (b : Byte) (h : m.wf = true) : (m.place a b).wf = true :=
  Memory.wfCells_placeCells m.cells a b h

/-- Setting up a run of addresses keeps the canonical form. -/
theorem Memory.placeBytes_wf (bs : List Byte) (m : Memory) (a : Nat) (h : m.wf = true) : (m.placeBytes a bs).wf = true := by
  induction bs generalizing m a with
  | nil => exact h
  | cons b bs ih => exact ih _ _ (Memory.place_wf m a b h)

/-- The message memory at reset is in canonical form. -/
theorem Memory.reset_wf : State.reset.mem.wf = true := rfl

/-- In a canonical memory the first address is below every other listed one, so a lookup below it finds nothing. -/
theorem Memory.lookup_none_of_le (cs : List Host.Cell) (lo n : Nat) (h : Memory.wfCells cs = true)
    (hlo : Memory.headAbove lo cs = true) (hn : n ≤ lo) : Memory.lookup cs n = none := by
  induction cs generalizing lo with
  | nil => rfl
  | cons cell cs ih =>
    obtain ⟨a', b'⟩ := cell
    obtain ⟨h2, h3⟩ := (Memory.wfCells_cons a' b' cs).1 h
    have : lo < a' := by simpa [headAbove] using hlo
    simp only [lookup]
    rw [if_neg (by omega)]
    exact ih a' h3 h2 (by omega)

/-- Two canonical memories that read alike everywhere are the same data. -/
theorem Memory.ext_read? (m m' : Memory) (h : m.wf = true) (h' : m'.wf = true) (hr : ∀ a, m.read? a = m'.read? a) : m = m' := by
  obtain ⟨cs⟩ := m
  obtain ⟨cs'⟩ := m'
  congr 1
  simp only [Memory.wf, Memory.read?] at h h' hr
  induction cs generalizing cs' with
  | nil =>
    cases cs' with
    | nil => rfl
    | cons cell cs' =>
      obtain ⟨a, b⟩ := cell
      have := hr a
      simp [lookup] at this
  | cons cell cs ih =>
    obtain ⟨a, b⟩ := cell
    obtain ⟨h2, h3⟩ := (Memory.wfCells_cons a b cs).1 h
    cases cs' with
    | nil =>
      have := hr a
      simp [lookup] at this
    | cons cell' cs' =>
      obtain ⟨a', b'⟩ := cell'
      obtain ⟨h2', h3'⟩ := (Memory.wfCells_cons a' b' cs').1 h'
      have ha : a = a' := by
        rcases Nat.lt_trichotomy a a' with hlt | heq | hgt
        · have := hr a
          rw [Memory.lookup_none_of_le ((a', b') :: cs') a a h' (by simpa [headAbove] using hlt) (Nat.le_refl a)] at this
          simp [lookup] at this
        · exact heq
        · have := hr a'
          rw [Memory.lookup_none_of_le ((a, b) :: cs) a' a' h (by simpa [headAbove] using hgt) (Nat.le_refl a')] at this
          simp [lookup] at this
      subst ha
      have hb : b = b' := by
        have := hr a
        simpa [lookup] using this
      subst hb
      rw [ih h3 cs' h3' (fun n => by
        have hn := hr n
        by_cases hna : a = n
        · subst hna
          rw [Memory.lookup_none_of_le cs a a h3 h2 (Nat.le_refl a), Memory.lookup_none_of_le cs' a a h3' h2' (Nat.le_refl a)]
        · simpa [lookup, hna] using hn)]

/-! ### Ranges -/

theorem Memory.validRange_iff (m : Memory) (a n : Nat) :
    m.validRange a n = true ↔ ∀ j, a ≤ j → j < a + n → m.valid j = true := by
  induction n generalizing a with
  | zero => simp only [validRange, true_iff]; omega
  | succ n ih =>
    simp only [validRange, Bool.and_eq_true, ih]
    constructor
    · rintro ⟨h0, h1⟩ j hj hj'
      by_cases hja : j = a
      · exact hja ▸ h0
      · exact h1 j (by omega) (by omega)
    · intro h
      exact ⟨h a (Nat.le_refl a) (by omega), fun j hj hj' => h j (by omega) (by omega)⟩

/-- The operand check passes exactly when the operands are not bad in the words of R155. -/
theorem argumentsOk_iff (aw : Nat) (m : Memory) (addr len : Nat) : argumentsOk aw m addr len = true ↔ ¬ BadRange aw m addr len := by
  simp only [argumentsOk, BadRange, Bool.or_eq_true, Bool.and_eq_true, beq_iff_eq, decide_eq_true_eq, Memory.validRange_iff]
  constructor
  · rintro (h | ⟨h1, h2⟩) ⟨hne, h3 | ⟨a, ha, ha', hb⟩⟩
    · exact hne h
    · exact hne h
    · omega
    · simp [h2 a ha ha'] at hb
  · intro h
    by_cases hl : len = 0
    · exact .inl hl
    · refine .inr ⟨?_, ?_⟩
      · by_contra hgt
        exact h ⟨hl, .inl (by omega)⟩
      · intro j hj hj'
        by_contra hb
        exact h ⟨hl, .inr ⟨j, hj, hj', by simpa using hb⟩⟩

/-- Inside the range of good operands every byte can be read. -/
theorem read?_of_not_badRange {aw : Nat} {m : Memory} {addr len : Nat} (h : ¬ BadRange aw m addr len) {a : Nat} (h1 : addr ≤ a)
    (h2 : a < addr + len) : ∃ b, m.read? a = some b := by
  have : m.valid a = true := by
    by_contra hb
    exact h ⟨by omega, .inr ⟨a, h1, h2, by simpa using hb⟩⟩
  simpa [Memory.valid, Option.isSome_iff_exists] using this

/-- Good operands stay inside the address space. -/
theorem sum_le_of_not_badRange {aw : Nat} {m : Memory} {addr len : Nat} (h : ¬ BadRange aw m addr len) (hl : len ≠ 0) :
    addr + len ≤ 2 ^ aw := by
  by_contra hgt
  exact h ⟨hl, .inl (by omega)⟩

/-! ### Messages -/

@[simp] theorem Memory.message_zero (m : Memory) (a : Nat) : m.message a 0 = [] := rfl

/-- A message one byte longer is the message with that byte at its end. -/
theorem Memory.message_succ (m : Memory) (a n : Nat) : m.message a (n + 1) = m.message a n ++ (m.read? (a + n)).toList := by
  induction n generalizing a with
  | zero => simp [message]
  | succ n ih =>
    rw [Memory.message, ih (a + 1), Memory.message]
    simp [Nat.add_assoc, Nat.add_comm 1 n]

/-- A message is cut anywhere into two messages. -/
theorem Memory.message_add (m : Memory) (a n k : Nat) : m.message a (n + k) = m.message a n ++ m.message (a + n) k := by
  induction k with
  | zero => simp
  | succ k ih => rw [← Nat.add_assoc, Memory.message_succ, ih, Memory.message_succ, List.append_assoc, Nat.add_assoc]

theorem Memory.message_length (m : Memory) (a n : Nat) (h : m.validRange a n = true) : (m.message a n).length = n := by
  induction n generalizing a with
  | zero => rfl
  | succ n ih =>
    simp only [validRange, Bool.and_eq_true] at h
    obtain ⟨b, hb⟩ := Option.isSome_iff_exists.1 h.1
    simp [message, hb, ih (a + 1) h.2]

/-- A message depends on nothing but the bytes in its range. -/
theorem Memory.message_congr (m m' : Memory) (a n : Nat) (h : ∀ j, a ≤ j → j < a + n → m.read? j = m'.read? j) :
    m.message a n = m'.message a n := by
  induction n generalizing a with
  | zero => rfl
  | succ n ih =>
    rw [message, message, h a (Nat.le_refl a) (by omega), ih (a + 1) fun j hj hj' => h j (by omega) (by omega)]

/-- Everything an eight-byte read can answer: the eight bytes at the eight addresses, and then the message of length 8 is those bytes. -/
theorem Memory.read8?_eq_some {m : Memory} {a : Nat} {w : DWord} (h : m.read8? a = some w) :
    ∃ b0 b1 b2 b3 b4 b5 b6 b7, m.message a 8 = [b0, b1, b2, b3, b4, b5, b6, b7] ∧ w = le64 b0 b1 b2 b3 b4 b5 b6 b7 := by
  unfold Memory.read8? at h
  split at h
  · rename_i b0 b1 b2 b3 b4 b5 b6 b7 h0 h1 h2 h3 h4 h5 h6 h7
    refine ⟨b0, b1, b2, b3, b4, b5, b6, b7, ?_, (Option.some.inj h).symm⟩
    simp [message, h0, h1, h2, h3, h4, h5, h6, h7]
  · cases h

/-- Eight readable bytes make one readable word. -/
theorem Memory.read8?_isSome {m : Memory} {a : Nat} (h : ∀ j, a ≤ j → j < a + 8 → ∃ b, m.read? j = some b) : ∃ w, m.read8? a = some w := by
  obtain ⟨b0, h0⟩ := h a (by omega) (by omega)
  obtain ⟨b1, h1⟩ := h (a + 1) (by omega) (by omega)
  obtain ⟨b2, h2⟩ := h (a + 2) (by omega) (by omega)
  obtain ⟨b3, h3⟩ := h (a + 3) (by omega) (by omega)
  obtain ⟨b4, h4⟩ := h (a + 4) (by omega) (by omega)
  obtain ⟨b5, h5⟩ := h (a + 5) (by omega) (by omega)
  obtain ⟨b6, h6⟩ := h (a + 6) (by omega) (by omega)
  obtain ⟨b7, h7⟩ := h (a + 7) (by omega) (by omega)
  exact ⟨le64 b0 b1 b2 b3 b4 b5 b6 b7, by simp [Memory.read8?, h0, h1, h2, h3, h4, h5, h6, h7]⟩

end Sys2Proof.Machine
end

