-- ==== Sys2Proof/Laws/State.lean ====
section
/-! SUPPORT. One lemma per field per update of the state, each true by rfl, so that no proof unfolds a record update; and what reading a
context says after one was written. -/

namespace Sys2Proof.Machine

/-! ### `setCtx` -/

@[simp] theorem State.setCtx_aw (s : State) (c : Nat) (x : Context) : (s.setCtx c x).aw = s.aw := rfl
@[simp] theorem State.setCtx_ctxs (s : State) (c : Nat) (x : Context) : (s.setCtx c x).ctxs = s.ctxs.set c x := rfl
@[simp] theorem State.setCtx_tblState (s : State) (c : Nat) (x : Context) : (s.setCtx c x).tblState = s.tblState := rfl
@[simp] theorem State.setCtx_tblIdx (s : State) (c : Nat) (x : Context) : (s.setCtx c x).tblIdx = s.tblIdx := rfl
@[simp] theorem State.setCtx_table (s : State) (c : Nat) (x : Context) : (s.setCtx c x).table = s.table := rfl
@[simp] theorem State.setCtx_mem (s : State) (c : Nat) (x : Context) : (s.setCtx c x).mem = s.mem := rfl
@[simp] theorem State.setCtx_port (s : State) (c : Nat) (x : Context) : (s.setCtx c x).port = s.port := rfl
@[simp] theorem State.setCtx_outbox (s : State) (c : Nat) (x : Context) : (s.setCtx c x).outbox = s.outbox := rfl
@[simp] theorem State.setCtx_events (s : State) (c : Nat) (x : Context) : (s.setCtx c x).events = s.events := rfl
@[simp] theorem State.setCtx_freeCtr (s : State) (c : Nat) (x : Context) : (s.setCtx c x).freeCtr = s.freeCtr := rfl

/-! ### `dropCommand` -/

@[simp] theorem State.dropCommand_aw (s : State) (c : Nat) : (s.dropCommand c).aw = s.aw := rfl
@[simp] theorem State.dropCommand_ctxs (s : State) (c : Nat) : (s.dropCommand c).ctxs = s.ctxs := rfl
@[simp] theorem State.dropCommand_tblState (s : State) (c : Nat) : (s.dropCommand c).tblState = s.tblState := rfl
@[simp] theorem State.dropCommand_tblIdx (s : State) (c : Nat) : (s.dropCommand c).tblIdx = s.tblIdx := rfl
@[simp] theorem State.dropCommand_table (s : State) (c : Nat) : (s.dropCommand c).table = s.table := rfl
@[simp] theorem State.dropCommand_mem (s : State) (c : Nat) : (s.dropCommand c).mem = s.mem := rfl
@[simp] theorem State.dropCommand_port (s : State) (c : Nat) : (s.dropCommand c).port = s.port.eraseP fun k => k.ctx == c := rfl
@[simp] theorem State.dropCommand_outbox (s : State) (c : Nat) : (s.dropCommand c).outbox = s.outbox := rfl
@[simp] theorem State.dropCommand_events (s : State) (c : Nat) : (s.dropCommand c).events = s.events := rfl
@[simp] theorem State.dropCommand_freeCtr (s : State) (c : Nat) : (s.dropCommand c).freeCtr = s.freeCtr := rfl

/-! ### `respond` -/

@[simp] theorem State.respond_aw (s : State) (c : Nat) (r : Response) : (s.respond c r).aw = s.aw := rfl
@[simp] theorem State.respond_ctxs (s : State) (c : Nat) (r : Response) : (s.respond c r).ctxs = s.ctxs := rfl
@[simp] theorem State.respond_tblState (s : State) (c : Nat) (r : Response) : (s.respond c r).tblState = s.tblState := rfl
@[simp] theorem State.respond_tblIdx (s : State) (c : Nat) (r : Response) : (s.respond c r).tblIdx = s.tblIdx := rfl
@[simp] theorem State.respond_table (s : State) (c : Nat) (r : Response) : (s.respond c r).table = s.table := rfl
@[simp] theorem State.respond_mem (s : State) (c : Nat) (r : Response) : (s.respond c r).mem = s.mem := rfl
@[simp] theorem State.respond_port (s : State) (c : Nat) (r : Response) : (s.respond c r).port = s.port := rfl
@[simp] theorem State.respond_outbox (s : State) (c : Nat) (r : Response) : (s.respond c r).outbox = s.outbox ++ [{ ctx := c, resp := r }] := rfl
@[simp] theorem State.respond_events (s : State) (c : Nat) (r : Response) : (s.respond c r).events = s.events := rfl
@[simp] theorem State.respond_freeCtr (s : State) (c : Nat) (r : Response) : (s.respond c r).freeCtr = s.freeCtr := rfl

/-! ### `raise` -/

@[simp] theorem State.raise_aw (s : State) (c : Nat) (e : ErrCode) : (s.raise c e).aw = s.aw := rfl
@[simp] theorem State.raise_ctxs (s : State) (c : Nat) (e : ErrCode) : (s.raise c e).ctxs = s.ctxs := rfl
@[simp] theorem State.raise_tblState (s : State) (c : Nat) (e : ErrCode) : (s.raise c e).tblState = s.tblState := rfl
@[simp] theorem State.raise_tblIdx (s : State) (c : Nat) (e : ErrCode) : (s.raise c e).tblIdx = s.tblIdx := rfl
@[simp] theorem State.raise_table (s : State) (c : Nat) (e : ErrCode) : (s.raise c e).table = s.table := rfl
@[simp] theorem State.raise_mem (s : State) (c : Nat) (e : ErrCode) : (s.raise c e).mem = s.mem := rfl
@[simp] theorem State.raise_port (s : State) (c : Nat) (e : ErrCode) : (s.raise c e).port = s.port.eraseP fun k => k.ctx == c := rfl
@[simp] theorem State.raise_outbox (s : State) (c : Nat) (e : ErrCode) : (s.raise c e).outbox = s.outbox ++ [{ ctx := c, resp := .err e }] := rfl
@[simp] theorem State.raise_events (s : State) (c : Nat) (e : ErrCode) : (s.raise c e).events = s.events := rfl
@[simp] theorem State.raise_freeCtr (s : State) (c : Nat) (e : ErrCode) : (s.raise c e).freeCtr = s.freeCtr := rfl

/-! ### `present` -/

@[simp] theorem State.present_aw (s : State) (k : Command) : (s.present k).aw = s.aw := rfl
@[simp] theorem State.present_ctxs (s : State) (k : Command) : (s.present k).ctxs = s.ctxs := rfl
@[simp] theorem State.present_tblState (s : State) (k : Command) : (s.present k).tblState = s.tblState := rfl
@[simp] theorem State.present_tblIdx (s : State) (k : Command) : (s.present k).tblIdx = s.tblIdx := rfl
@[simp] theorem State.present_table (s : State) (k : Command) : (s.present k).table = s.table := rfl
@[simp] theorem State.present_mem (s : State) (k : Command) : (s.present k).mem = s.mem := rfl
@[simp] theorem State.present_port (s : State) (k : Command) : (s.present k).port = s.port ++ [Command.carried s.aw k] := rfl
@[simp] theorem State.present_outbox (s : State) (k : Command) : (s.present k).outbox = s.outbox := rfl
@[simp] theorem State.present_events (s : State) (k : Command) : (s.present k).events = s.events := rfl
@[simp] theorem State.present_freeCtr (s : State) (k : Command) : (s.present k).freeCtr = s.freeCtr := rfl

/-! ### `resetBlock` -/

@[simp] theorem State.resetBlock_aw (s : State) : (s.resetBlock).aw = s.aw := rfl
@[simp] theorem State.resetBlock_ctxs (s : State) : (s.resetBlock).ctxs = contextsFrom s.aw s.freeCtr 0 s.ctxs.length := rfl
@[simp] theorem State.resetBlock_tblState (s : State) : (s.resetBlock).tblState = .empty := rfl
@[simp] theorem State.resetBlock_tblIdx (s : State) : (s.resetBlock).tblIdx = 0#12 := rfl
@[simp] theorem State.resetBlock_table (s : State) : (s.resetBlock).table = Table.powerUp s.freeCtr := rfl
@[simp] theorem State.resetBlock_mem (s : State) : (s.resetBlock).mem = s.mem := rfl
@[simp] theorem State.resetBlock_port (s : State) : (s.resetBlock).port = [] := rfl
@[simp] theorem State.resetBlock_outbox (s : State) : (s.resetBlock).outbox = s.outbox := rfl
@[simp] theorem State.resetBlock_events (s : State) : (s.resetBlock).events = s.events := rfl
@[simp] theorem State.resetBlock_freeCtr (s : State) : (s.resetBlock).freeCtr = s.freeCtr + 1 := rfl

/-! ### `entryWrite` -/

@[simp] theorem entryWrite_aw (s : State) : (entryWrite s).aw = s.aw := rfl
@[simp] theorem entryWrite_ctxs (s : State) : (entryWrite s).ctxs = s.ctxs := rfl
@[simp] theorem entryWrite_tblState (s : State) : (entryWrite s).tblState = s.tblState := rfl
@[simp] theorem entryWrite_tblIdx (s : State) : (entryWrite s).tblIdx = s.tblIdx + 1#12 := rfl
@[simp] theorem entryWrite_table (s : State) : (entryWrite s).table = s.table.set (entryRow s.tblIdx) (entryIndex s.tblIdx) (entryValue s.table (entryRow s.tblIdx) (entryIndex s.tblIdx)) := rfl
@[simp] theorem entryWrite_mem (s : State) : (entryWrite s).mem = s.mem := rfl
@[simp] theorem entryWrite_port (s : State) : (entryWrite s).port = s.port := rfl
@[simp] theorem entryWrite_outbox (s : State) : (entryWrite s).outbox = s.outbox := rfl
@[simp] theorem entryWrite_events (s : State) : (entryWrite s).events = s.events := rfl
@[simp] theorem entryWrite_freeCtr (s : State) : (entryWrite s).freeCtr = s.freeCtr := rfl

/-! ### `publishStep` -/

@[simp] theorem publishStep_aw (s : State) (c : Nat) (x : Context) : (publishStep c x s).aw = s.aw := rfl
@[simp] theorem publishStep_ctxs (s : State) (c : Nat) (x : Context) : (publishStep c x s).ctxs = s.ctxs.set c { x with seq := .cHead } := rfl
@[simp] theorem publishStep_tblState (s : State) (c : Nat) (x : Context) : (publishStep c x s).tblState = .ready := rfl
@[simp] theorem publishStep_tblIdx (s : State) (c : Nat) (x : Context) : (publishStep c x s).tblIdx = s.tblIdx := rfl
@[simp] theorem publishStep_table (s : State) (c : Nat) (x : Context) : (publishStep c x s).table = s.table := rfl
@[simp] theorem publishStep_mem (s : State) (c : Nat) (x : Context) : (publishStep c x s).mem = s.mem := rfl
@[simp] theorem publishStep_port (s : State) (c : Nat) (x : Context) : (publishStep c x s).port = s.port := rfl
@[simp] theorem publishStep_outbox (s : State) (c : Nat) (x : Context) : (publishStep c x s).outbox = s.outbox := rfl
@[simp] theorem publishStep_events (s : State) (c : Nat) (x : Context) : (publishStep c x s).events = s.events := rfl
@[simp] theorem publishStep_freeCtr (s : State) (c : Nat) (x : Context) : (publishStep c x s).freeCtr = s.freeCtr := rfl

/-! ### `phaseChange` -/

@[simp] theorem phaseChange_aw (s : State) (c : Nat) (x : Context) (q : Seq) : (phaseChange c x q s).aw = s.aw := rfl
@[simp] theorem phaseChange_ctxs (s : State) (c : Nat) (x : Context) (q : Seq) : (phaseChange c x q s).ctxs = s.ctxs.set c { x with seq := q } := rfl
@[simp] theorem phaseChange_tblState (s : State) (c : Nat) (x : Context) (q : Seq) : (phaseChange c x q s).tblState = s.tblState := rfl
@[simp] theorem phaseChange_tblIdx (s : State) (c : Nat) (x : Context) (q : Seq) : (phaseChange c x q s).tblIdx = s.tblIdx := rfl
@[simp] theorem phaseChange_table (s : State) (c : Nat) (x : Context) (q : Seq) : (phaseChange c x q s).table = s.table := rfl
@[simp] theorem phaseChange_mem (s : State) (c : Nat) (x : Context) (q : Seq) : (phaseChange c x q s).mem = s.mem := rfl
@[simp] theorem phaseChange_port (s : State) (c : Nat) (x : Context) (q : Seq) : (phaseChange c x q s).port = s.port := rfl
@[simp] theorem phaseChange_outbox (s : State) (c : Nat) (x : Context) (q : Seq) : (phaseChange c x q s).outbox = s.outbox := rfl
@[simp] theorem phaseChange_events (s : State) (c : Nat) (x : Context) (q : Seq) : (phaseChange c x q s).events = s.events := rfl
@[simp] theorem phaseChange_freeCtr (s : State) (c : Nat) (x : Context) (q : Seq) : (phaseChange c x q s).freeCtr = s.freeCtr := rfl

/-! ### `finishBitSerial` -/

@[simp] theorem finishBitSerial_aw (s : State) (c : Nat) (x : Context) : (finishBitSerial c x s).aw = s.aw := rfl
@[simp] theorem finishBitSerial_ctxs (s : State) (c : Nat) (x : Context) : (finishBitSerial c x s).ctxs = s.ctxs.set c { x with seq := .idle, job := none } := rfl
@[simp] theorem finishBitSerial_tblState (s : State) (c : Nat) (x : Context) : (finishBitSerial c x s).tblState = s.tblState := rfl
@[simp] theorem finishBitSerial_tblIdx (s : State) (c : Nat) (x : Context) : (finishBitSerial c x s).tblIdx = s.tblIdx := rfl
@[simp] theorem finishBitSerial_table (s : State) (c : Nat) (x : Context) : (finishBitSerial c x s).table = s.table := rfl
@[simp] theorem finishBitSerial_mem (s : State) (c : Nat) (x : Context) : (finishBitSerial c x s).mem = s.mem := rfl
@[simp] theorem finishBitSerial_port (s : State) (c : Nat) (x : Context) : (finishBitSerial c x s).port = s.port := rfl
@[simp] theorem finishBitSerial_outbox (s : State) (c : Nat) (x : Context) : (finishBitSerial c x s).outbox = s.outbox ++ [{ ctx := c, resp := .ok x.r }] := rfl
@[simp] theorem finishBitSerial_events (s : State) (c : Nat) (x : Context) : (finishBitSerial c x s).events = s.events := rfl
@[simp] theorem finishBitSerial_freeCtr (s : State) (c : Nat) (x : Context) : (finishBitSerial c x s).freeCtr = s.freeCtr := rfl

/-! ### `finishCrc32c` -/

@[simp] theorem finishCrc32c_aw (s : State) (c : Nat) (x : Context) : (finishCrc32c c x s).aw = s.aw := rfl
@[simp] theorem finishCrc32c_ctxs (s : State) (c : Nat) (x : Context) : (finishCrc32c c x s).ctxs = s.ctxs.set c { x with seq := .idle, job := none } := rfl
@[simp] theorem finishCrc32c_tblState (s : State) (c : Nat) (x : Context) : (finishCrc32c c x s).tblState = s.tblState := rfl
@[simp] theorem finishCrc32c_tblIdx (s : State) (c : Nat) (x : Context) : (finishCrc32c c x s).tblIdx = s.tblIdx := rfl
@[simp] theorem finishCrc32c_table (s : State) (c : Nat) (x : Context) : (finishCrc32c c x s).table = s.table := rfl
@[simp] theorem finishCrc32c_mem (s : State) (c : Nat) (x : Context) : (finishCrc32c c x s).mem = s.mem := rfl
@[simp] theorem finishCrc32c_port (s : State) (c : Nat) (x : Context) : (finishCrc32c c x s).port = s.port := rfl
@[simp] theorem finishCrc32c_outbox (s : State) (c : Nat) (x : Context) : (finishCrc32c c x s).outbox = s.outbox ++ [{ ctx := c, resp := .ok (x.c ^^^ ones) }] := rfl
@[simp] theorem finishCrc32c_events (s : State) (c : Nat) (x : Context) : (finishCrc32c c x s).events = s.events := rfl
@[simp] theorem finishCrc32c_freeCtr (s : State) (c : Nat) (x : Context) : (finishCrc32c c x s).freeCtr = s.freeCtr := rfl

/-! ### Reading a context after writing one -/

theorem State.ctx?_setCtx_same {s : State} {c : Nat} {x y : Context} (h : s.ctx? c = some y) : (s.setCtx c x).ctx? c = some x := by
  have hc : c < s.ctxs.length := by
    by_contra hn
    simp [State.ctx?, List.getElem?_eq_none (Nat.le_of_not_lt hn)] at h
  simp [State.ctx?, hc]

theorem State.ctx?_setCtx_other {s : State} {c n : Nat} {x : Context} (h : n ≠ c) : (s.setCtx c x).ctx? n = s.ctx? n := by
  simp [State.ctx?, Ne.symm h]

/-- Whatever context is read after a write: the one written, or one that was there before. -/
theorem State.ctx?_setCtx_cases {s : State} {c n : Nat} {x y : Context} (h : (s.setCtx c x).ctx? n = some y) :
    (n = c ∧ y = x) ∨ (n ≠ c ∧ s.ctx? n = some y) := by
  by_cases hn : n = c
  · subst hn
    simp only [State.ctx?, State.setCtx_ctxs, List.getElem?_set, if_true] at h
    split at h
    · exact .inl ⟨rfl, (Option.some.inj h).symm⟩
    · cases h
  · rw [State.ctx?_setCtx_other hn] at h
    exact .inr ⟨hn, h⟩

/-- Reading a context depends on nothing but the list of contexts. -/
theorem State.ctx?_of_ctxs_eq {s t : State} (h : t.ctxs = s.ctxs) (n : Nat) : t.ctx? n = s.ctx? n := by
  simp [State.ctx?, h]

theorem State.setCtx_setCtx (s : State) (c : Nat) (x y : Context) : (s.setCtx c x).setCtx c y = s.setCtx c y := by
  simp [State.setCtx]

theorem State.length_setCtx (s : State) (c : Nat) (x : Context) : (s.setCtx c x).ctxs.length = s.ctxs.length := by simp

/-- A write at a number that is no context's changes nothing. -/
theorem State.setCtx_of_none {s : State} {c : Nat} {x : Context} (h : s.ctx? c = none) : s.setCtx c x = s := by
  have : s.ctxs.set c x = s.ctxs := List.set_eq_of_length_le (by simpa [State.ctx?] using h)
  simp [State.setCtx, this]

/-! ### A command at the port -/

@[simp] theorem Command.carried_ctx (aw : Nat) (k : Command) : (Command.carried aw k).ctx = k.ctx := rfl
@[simp] theorem Command.carried_op (aw : Nat) (k : Command) : (Command.carried aw k).op = k.op := rfl
@[simp] theorem Command.carried_arg (aw : Nat) (k : Command) : (Command.carried aw k).arg = k.arg := rfl

/-- The fields of a command at the port fit their `AW` bits. -/
theorem Command.carried_fits (aw : Nat) (k : Command) : Fits aw (Command.carried aw k).addr (Command.carried aw k).len :=
  ⟨Nat.mod_lt _ (Nat.two_pow_pos aw), Nat.mod_lt _ (Nat.two_pow_pos aw)⟩

/-- A command whose fields fit is carried as it is. -/
theorem Command.carried_of_fits {aw : Nat} {k : Command} (h : Fits aw k.addr k.len) : Command.carried aw k = k := by
  unfold Command.carried
  rw [Nat.mod_eq_of_lt h.addr, Nat.mod_eq_of_lt h.len]

/-! ### Reset -/

@[simp] theorem length_contextsFrom (aw k c n : Nat) : (contextsFrom aw k c n).length = n := by
  induction n generalizing c with
  | zero => rfl
  | succ n ih => simp [contextsFrom, ih]

/-- Every context of a block that has just been reset is one of `Context.powerUp`. -/
theorem contextsFrom_getElem? (aw k c m n : Nat) (x : Context) (h : (contextsFrom aw k c m)[n]? = some x) :
    x = Context.powerUp aw k (c + n) := by
  induction m generalizing c n with
  | zero => simp [contextsFrom] at h
  | succ m ih =>
    cases n with
    | zero => simpa [contextsFrom, eq_comm] using h
    | succ n =>
      rw [ih (c + 1) n (by simpa [contextsFrom] using h), Nat.add_right_comm, Nat.add_assoc]

@[simp] theorem Context.powerUp_seq (aw k c : Nat) : (Context.powerUp aw k c).seq = .idle := rfl
@[simp] theorem Context.powerUp_job (aw k c : Nat) : (Context.powerUp aw k c).job = none := rfl

/-- Whatever the registers of a context hold after reset, they have their widths. -/
theorem Context.powerUp_cursor (aw k c : Nat) : (Context.powerUp aw k c).ptr < 2 ^ aw ∧ (Context.powerUp aw k c).rem < 2 ^ aw :=
  ⟨Nat.mod_lt _ (Nat.two_pow_pos aw), Nat.mod_lt _ (Nat.two_pow_pos aw)⟩

@[simp] theorem State.powerOn_aw (p : Platform) : (State.powerOn p).aw = p.aw := rfl
@[simp] theorem State.powerOn_ctxs (p : Platform) : (State.powerOn p).ctxs = contextsFrom p.aw 0 0 p.nctx := rfl
@[simp] theorem State.powerOn_tblState (p : Platform) : (State.powerOn p).tblState = .empty := rfl
@[simp] theorem State.powerOn_tblIdx (p : Platform) : (State.powerOn p).tblIdx = 0#12 := rfl
@[simp] theorem State.powerOn_mem (p : Platform) : (State.powerOn p).mem = p.mem := rfl
@[simp] theorem State.powerOn_port (p : Platform) : (State.powerOn p).port = [] := rfl

/-- Every context of a block right after power-on is one of `Context.powerUp`. -/
theorem State.powerOn_ctx? (p : Platform) (n : Nat) (x : Context) (h : (State.powerOn p).ctx? n = some x) :
    x = Context.powerUp p.aw 0 n := by
  simpa using contextsFrom_getElem? p.aw 0 0 p.nctx n x h

/-- The parameters of the machine the host starts are legal. -/
theorem Platform.default_legal : Platform.default.Legal :=
  ⟨by decide, Nat.succ_le_succ (Nat.zero_le _), rfl, rfl⟩

end Sys2Proof.Machine
end

