-- ==== Sys2Proof/Laws/Steps.lean ====
section
/-! SUPPORT. What one step can do, said once: the accept step of every command, a turn of a context, an event, a step of the machine. Later
proofs split on these cases instead of unfolding the step. -/

namespace Sys2Proof.Machine

/-! ### The accept step -/

/-- What the accept step of a command makes of its context. -/
def loadOf (i : Instr) : Context → Context :=
  match i with
  | .bsMpeg2 _ addr len => loadBitSerial i tagMpeg2 initMpeg2 addr len
  | .bsXfer _ addr len => loadBitSerial i tagXfer initXfer addr len
  | .bsAixm _ addr len => loadBitSerial i tagAixm initAixm addr len
  | .bsiMpeg2 _ arg addr len => loadBitSerial i tagMpeg2 arg addr len
  | .bsiXfer _ arg addr len => loadBitSerial i tagXfer arg addr len
  | .bsiAixm _ arg addr len => loadBitSerial i tagAixm arg addr len
  | .c32cUpdate _ arg addr len => loadCrc32c i arg addr len

/-- All seven meanings are the one accept step, each with its own load. -/
theorem exec_eq_accept (i : Instr) (s : State) : exec i s = accept i.ctx i.addr i.len (loadOf i) s := by
  cases i <;> rfl

@[simp] theorem loadOf_ptr (i : Instr) (x : Context) : (loadOf i x).ptr = i.addr := by cases i <;> rfl
@[simp] theorem loadOf_rem (i : Instr) (x : Context) : (loadOf i x).rem = i.len := by cases i <;> rfl
@[simp] theorem loadOf_job (i : Instr) (x : Context) : (loadOf i x).job = some i := by cases i <;> rfl

/-- A bit-serial command starts in `BS_RUN`, `C32C.UPDATE` at the guard. -/
theorem loadOf_seq (i : Instr) (x : Context) : (loadOf i x).seq = if i.bitSerial?.isSome then .bsRun else .cGuard := by
  cases i <;> rfl

/-- What a bit-serial command loads. -/
theorem loadOf_bitSerial {i : Instr} {tag : BitVec 2} {init p : Word} (h : i.bitSerial? = some (tag, init, p)) (x : Context) :
    loadOf i x = { x with var := tag, r := init, ptr := i.addr, rem := i.len, seq := .bsRun, job := some i } ∧ poly? tag = some p := by
  cases i <;> cases h <;> exact ⟨rfl, rfl⟩

/-- A context that is not `IDLE` leaves its command waiting. -/
theorem accept_busy {c : Nat} {addr len : Nat} {load : Context → Context} {s : State} {x : Context} (hx : s.ctx? c = some x)
    (hb : x.seq ≠ .idle) : accept c addr len load s = .next s := by
  simp [accept, hx, hb]

/-- A command for a number that is no context's waits for ever. -/
theorem accept_absent {c : Nat} {addr len : Nat} {load : Context → Context} {s : State} (hx : s.ctx? c = none) :
    accept c addr len load s = .next s := by
  simp [accept, hx]

/-- An `IDLE` context takes a command with good operands. -/
theorem accept_taken {c : Nat} {addr len : Nat} {load : Context → Context} {s : State} {x : Context} (hx : s.ctx? c = some x)
    (hi : x.seq = .idle) (hok : ¬ BadRange s.aw s.mem addr len) :
    accept c addr len load s = .next ((s.dropCommand c).setCtx c (load x)) := by
  simp [accept, hx, hi, (argumentsOk_iff s.aw s.mem addr len).2 hok]

/-- An `IDLE` context refuses a command with bad operands. -/
theorem accept_refused {c : Nat} {addr len : Nat} {load : Context → Context} {s : State} {x : Context} (hx : s.ctx? c = some x)
    (hi : x.seq = .idle) (hbad : BadRange s.aw s.mem addr len) : accept c addr len load s = .next (s.raise c .invalidArgument) := by
  have : argumentsOk s.aw s.mem addr len = false := by
    by_contra h
    exact (argumentsOk_iff s.aw s.mem addr len).1 (by simpa using h) hbad
  simp [accept, hx, hi, this]

/-- The command a context would take is routed to that context and stands at the port. -/
theorem nextCommand_ctx {s : State} {c : Nat} {k : Command} (h : s.nextCommand c = some k) : k.ctx = c ∧ k ∈ s.port := by
  unfold State.nextCommand at h
  exact ⟨by simpa using List.find?_some h, List.mem_of_find?_eq_some h⟩

/-- Decoding keeps the routing and the operands `ADDR` and `LEN`. -/
theorem decode_operands {k : Command} {i : Instr} (h : decode k = .ok i) : i.ctx = k.ctx ∧ i.addr = k.addr ∧ i.len = k.len := by
  unfold decode at h
  split at h
  · cases h; exact ⟨rfl, rfl, rfl⟩
  split at h
  · cases h; exact ⟨rfl, rfl, rfl⟩
  split at h
  · cases h; exact ⟨rfl, rfl, rfl⟩
  split at h
  · cases h; exact ⟨rfl, rfl, rfl⟩
  split at h
  · cases h; exact ⟨rfl, rfl, rfl⟩
  split at h
  · cases h; exact ⟨rfl, rfl, rfl⟩
  split at h
  · cases h; exact ⟨rfl, rfl, rfl⟩
  cases h

/-! ### A turn -/

/-- Everything a turn of context `c` can do when it reaches a next state. -/
inductive TurnTo (c : Nat) (s : State) : State → Prop where
  /-- There is no context `c`: the turn passes. -/
  | absent (hx : s.ctx? c = none) : TurnTo c s s
  /-- `IDLE` with no command at the port for it: the turn passes. -/
  | noCommand (x : Context) (hx : s.ctx? c = some x) (hq : x.seq = .idle) (hk : s.nextCommand c = none) : TurnTo c s s
  /-- The accept step refuses an illegal `OP`. -/
  | illegal (x : Context) (hx : s.ctx? c = some x) (hq : x.seq = .idle) (k : Command) (hk : s.nextCommand c = some k)
      (e : DecodeError) (he : decode k = .error e) : TurnTo c s (s.raise c .illegalCommand)
  /-- The accept step refuses bad operands. -/
  | badOperands (x : Context) (hx : s.ctx? c = some x) (hq : x.seq = .idle) (k : Command) (hk : s.nextCommand c = some k)
      (i : Instr) (hi : decode k = .ok i) (hbad : BadRange s.aw s.mem i.addr i.len) : TurnTo c s (s.raise c .invalidArgument)
  /-- The accept step takes the command. -/
  | taken (x : Context) (hx : s.ctx? c = some x) (hq : x.seq = .idle) (k : Command) (hk : s.nextCommand c = some k)
      (i : Instr) (hi : decode k = .ok i) (hok : ¬ BadRange s.aw s.mem i.addr i.len) :
      TurnTo c s ((s.dropCommand c).setCtx c (loadOf i x))
  /-- An `ABSORB` step. -/
  | absorb (x : Context) (hx : s.ctx? c = some x) (hq : x.seq = .bsRun) (hr : x.rem ≠ 0) (b : Byte)
      (hb : s.mem.read? x.ptr = some b) (p : Word) (hp : poly? x.var = some p) :
      TurnTo c s (s.setCtx c { x with r := absorb x.r b p, ptr := advance s.aw x.ptr 1, rem := x.rem - 1 })
  /-- The bit-serial finish step. -/
  | finishBitSerial (x : Context) (hx : s.ctx? c = some x) (hq : x.seq = .bsRun) (hr : x.rem = 0) :
      TurnTo c s (finishBitSerial c x s)
  /-- The guard step that finds `EMPTY`. -/
  | guardWon (x : Context) (hx : s.ctx? c = some x) (hq : x.seq = .cGuard) (ht : s.tblState = .empty) :
      TurnTo c s ({ s with tblState := .building, tblIdx := 0#12 }.setCtx c { x with seq := .cBuild })
  /-- The guard step that finds `READY`. -/
  | guardPassed (x : Context) (hx : s.ctx? c = some x) (hq : x.seq = .cGuard) (ht : s.tblState = .ready) :
      TurnTo c s (s.setCtx c { x with seq := .cHead })
  /-- Held at the guard: the turn passes. -/
  | held (x : Context) (hx : s.ctx? c = some x) (hq : x.seq = .cGuard) (ht : s.tblState = .building) : TurnTo c s s
  /-- An entry-write step. -/
  | entryWrite (x : Context) (hx : s.ctx? c = some x) (hq : x.seq = .cBuild) (hi : s.tblIdx.toNat < 2048) : TurnTo c s (entryWrite s)
  /-- The publish step. -/
  | publish (x : Context) (hx : s.ctx? c = some x) (hq : x.seq = .cBuild) (hi : s.tblIdx.toNat = 2048) :
      TurnTo c s (publishStep c x s)
  /-- `TBL_IDX` above its range: no step is enabled, the turn passes. -/
  | overrun (x : Context) (hx : s.ctx? c = some x) (hq : x.seq = .cBuild) (hi : 2048 < s.tblIdx.toNat) : TurnTo c s s
  /-- A byte step, in the head or the tail phase. -/
  | byte (x : Context) (hx : s.ctx? c = some x)
      (hq : (x.seq = .cHead ∧ x.ptr % 8 ≠ 0) ∨ x.seq = .cTail) (hr : x.rem ≠ 0) (b : Byte)
      (hb : s.mem.read? x.ptr = some b) :
      TurnTo c s (s.setCtx c { x with c := cbyte s.table.get x.c b, ptr := advance s.aw x.ptr 1, rem := x.rem - 1 })
  /-- The phase change out of the head phase. -/
  | leaveHead (x : Context) (hx : s.ctx? c = some x) (hq : x.seq = .cHead) (hr : x.ptr % 8 = 0 ∨ x.rem = 0) :
      TurnTo c s (phaseChange c x .cFold s)
  /-- A fold step. -/
  | fold (x : Context) (hx : s.ctx? c = some x) (hq : x.seq = .cFold) (hr : 8 ≤ x.rem) (ha : x.ptr % 8 = 0) (w : DWord)
      (hw : s.mem.read8? x.ptr = some w) :
      TurnTo c s (s.setCtx c { x with c := cfold s.table.get x.c w, ptr := advance s.aw x.ptr 8, rem := x.rem - 8 })
  /-- The phase change out of the fold phase. -/
  | leaveFold (x : Context) (hx : s.ctx? c = some x) (hq : x.seq = .cFold) (hr : x.rem < 8) : TurnTo c s (phaseChange c x .cTail s)
  /-- The CRC-32C finish step. -/
  | finishCrc32c (x : Context) (hx : s.ctx? c = some x) (hq : x.seq = .cTail) (hr : x.rem = 0) : TurnTo c s (finishCrc32c c x s)

theorem byteStep_cases {c : Nat} {x : Context} {s t : State} (h : byteStep c x s = .next t) :
    ∃ b, s.mem.read? x.ptr = some b ∧
      t = s.setCtx c { x with c := cbyte s.table.get x.c b, ptr := advance s.aw x.ptr 1, rem := x.rem - 1 } := by
  unfold byteStep at h
  split at h
  · cases h
  · rename_i b hb
    cases h
    exact ⟨b, hb, rfl⟩

theorem absorbStep_cases {c : Nat} {x : Context} {s t : State} (h : absorbStep c x s = .next t) :
    ∃ b p, s.mem.read? x.ptr = some b ∧ poly? x.var = some p ∧
      t = s.setCtx c { x with r := absorb x.r b p, ptr := advance s.aw x.ptr 1, rem := x.rem - 1 } := by
  unfold absorbStep at h
  split at h
  · cases h
  · rename_i b hb
    split at h
    · cases h
    · rename_i p hp
      cases h
      exact ⟨b, p, hb, hp, rfl⟩

theorem foldStep_cases {c : Nat} {x : Context} {s t : State} (h : foldStep c x s = .next t) :
    x.ptr % 8 = 0 ∧ ∃ w, s.mem.read8? x.ptr = some w ∧
      t = s.setCtx c { x with c := cfold s.table.get x.c w, ptr := advance s.aw x.ptr 8, rem := x.rem - 8 } := by
  unfold foldStep at h
  split at h
  · rename_i ha
    split at h
    · cases h
    · rename_i w hw
      cases h
      exact ⟨ha, w, hw, rfl⟩
  · cases h

/-- A turn that reaches a next state does one of the things of `TurnTo`. -/
theorem turn_cases {c : Nat} {s t : State} (h : turn c s = .next t) : TurnTo c s t := by
  unfold turn at h
  split at h
  · rename_i hx
    cases h
    exact .absent hx
  · rename_i x hx
    split at h
    · rename_i hq
      unfold acceptStep at h
      split at h
      · rename_i hk
        cases h
        exact .noCommand x hx hq hk
      · rename_i k hk
        split at h
        · rename_i i hi
          have hc : i.ctx = c := by rw [(decode_operands hi).1, (nextCommand_ctx hk).1]
          rw [exec_eq_accept, hc] at h
          by_cases hbad : BadRange s.aw s.mem i.addr i.len
          · rw [accept_refused hx hq hbad] at h
            cases h
            exact .badOperands x hx hq k hk i hi hbad
          · rw [accept_taken hx hq hbad] at h
            cases h
            exact .taken x hx hq k hk i hi hbad
        · rename_i e he
          cases e
          cases h
          exact .illegal x hx hq k hk _ he
    · rename_i hq
      unfold bitSerialStep at h
      split at h
      · rename_i hr
        cases h
        exact .finishBitSerial x hx hq hr
      · rename_i hr
        obtain ⟨b, p, hb, hp, rfl⟩ := absorbStep_cases h
        exact .absorb x hx hq hr b hb p hp
    · rename_i hq
      cases h
      cases ht : s.tblState
      · simpa only [guardStep, ht] using TurnTo.guardWon x hx hq ht
      · simpa only [guardStep, ht] using TurnTo.held x hx hq ht
      · simpa only [guardStep, ht] using TurnTo.guardPassed x hx hq ht
    · rename_i hq
      cases h
      unfold buildStep
      split
      · rename_i hi
        exact .entryWrite x hx hq hi
      · split
        · rename_i hi
          exact .publish x hx hq hi
        · exact .overrun x hx hq (by omega)
    · rename_i hq
      unfold headStep at h
      split at h
      · rename_i hr
        obtain ⟨b, hb, rfl⟩ := byteStep_cases h
        exact .byte x hx (.inl ⟨hq, hr.1⟩) hr.2 b hb
      · rename_i hr
        cases h
        exact .leaveHead x hx hq (by tauto)
    · rename_i hq
      unfold foldPhaseStep at h
      split at h
      · rename_i hr
        obtain ⟨ha, w, hw, rfl⟩ := foldStep_cases h
        exact .fold x hx hq hr ha w hw
      · cases h
        exact .leaveFold x hx hq (by omega)
    · rename_i hq
      unfold tailStep at h
      split at h
      · rename_i hr
        obtain ⟨b, hb, rfl⟩ := byteStep_cases h
        exact .byte x hx (.inr hq) hr b hb
      · rename_i hr
        cases h
        exact .finishCrc32c x hx hq (by simpa using hr)

/-! ### An event, a step -/

/-- With a listed event, a step is that event. -/
theorem step_cons {s : State} {e : Event} {es : List Event} (h : s.events = e :: es) : step s = happen e { s with events := es } := by
  simp [step, nextEvent, h]

/-- With no event listed, a step is a turn of a freely chosen context. -/
theorem step_nil {s : State} (h : s.events = []) :
    step s = turn (Config.freeTurn s.freeCtr) { s with freeCtr := s.freeCtr + 1 } := by
  simp [step, nextEvent, h, happen]

/-- Everything a step can do when it reaches a next state: `u` is the state without the event that happens. -/
theorem step_cases {s t : State} (h : step s = .next t) : ∃ es n, ∃ u : State, u = { s with events := es, freeCtr := n } ∧
    ((∃ c, TurnTo c u t ∧ (s.events = .turn c :: es ∨ s.events = [])) ∨
      (∃ k, s.events = .present k :: es ∧ t = u.present k) ∨
      (∃ a b, s.events = .hostWrite a b :: es ∧ u.inFlight a = false ∧ t = { u with mem := u.mem.write a b }) ∨
      (s.events = .reset :: es ∧ t = u.resetBlock)) := by
  cases he : s.events with
  | nil =>
    rw [step_nil he] at h
    exact ⟨[], s.freeCtr + 1, _, rfl, .inl ⟨_, by simpa [he] using turn_cases h, .inr rfl⟩⟩
  | cons e es =>
    rw [step_cons he] at h
    refine ⟨es, s.freeCtr, { s with events := es }, rfl, ?_⟩
    cases e with
    | turn c => exact .inl ⟨c, turn_cases h, .inl rfl⟩
    | present k => cases h; exact .inr (.inl ⟨k, rfl, rfl⟩)
    | hostWrite a b =>
      simp only [happen] at h
      split at h
      · cases h
      · rename_i hf
        cases h
        exact .inr (.inr (.inl ⟨a, b, rfl, by simpa using hf, rfl⟩))
    | reset => cases h; exact .inr (.inr (.inr ⟨rfl, rfl⟩))

/-! ### Runs -/

/-- A run along no turns changes nothing. -/
theorem runTurns_nil (s : State) : runTurns s [] = .next s := rfl

theorem guardStep_withEvents (c : Nat) (x : Context) (s : State) (es : List Event) :
    guardStep c x { s with events := es } = { guardStep c x s with events := es } := by
  obtain ⟨_, _, ts, _⟩ := s
  cases ts <;> rfl

theorem accept_withEvents (c : Nat) (addr len : Nat) (load : Context → Context) (s : State) (es : List Event) :
    accept c addr len load { s with events := es } = mapNext (fun t => { t with events := es }) (accept c addr len load s) := by
  unfold accept
  show (match s.ctx? c with | none => _ | some x => _) = _
  cases s.ctx? c with
  | none => rfl
  | some x =>
    simp only
    split
    · split
      · rfl
      · rfl
    · rfl

/-- A turn neither reads nor writes the list of events. -/
theorem turn_withEvents (c : Nat) (s : State) (es : List Event) :
    turn c { s with events := es } = mapNext (fun t => { t with events := es }) (turn c s) := by
  unfold turn
  show (match s.ctx? c with | none => _ | some x => _) = _
  cases hx : s.ctx? c with
  | none => rfl
  | some x =>
    simp only
    cases x.seq with
    | idle =>
      simp only
      unfold acceptStep
      show (match s.nextCommand c with | none => _ | some k => _) = _
      cases s.nextCommand c with
      | none => rfl
      | some k =>
        simp only
        cases decode k with
        | error e => rfl
        | ok i => simp only [exec_eq_accept, accept_withEvents]
    | bsRun =>
      simp only [bitSerialStep, absorbStep]
      split
      · rfl
      · split
        · rfl
        · split <;> rfl
    | cGuard =>
      simp only [guardStep_withEvents]
      rfl
    | cBuild =>
      simp only [buildStep]
      split
      · rfl
      · split <;> rfl
    | cHead =>
      simp only [headStep, byteStep]
      split
      · split <;> rfl
      · rfl
    | cFold =>
      simp only [foldPhaseStep, foldStep]
      split
      · split
        · split <;> rfl
        · rfl
      · rfl
    | cTail =>
      simp only [tailStep, byteStep]
      split
      · split <;> rfl
      · rfl

/-- A turn leaves the list of events alone. -/
theorem turn_events {c : Nat} {s t : State} (h : turn c s = .next t) : t.events = s.events := by
  have := turn_withEvents c s s.events
  rw [show ({ s with events := s.events } : State) = s from rfl, h] at this
  have ht : t = { t with events := s.events } := Host.Outcome.next.inj this
  rw [ht]

/-- A run along turns is the first turn, then the rest of the run from what it reached. -/
theorem runTurns_cons {s t : State} {c : Nat} (cs : List Nat) (h : turn c s = .next t) : runTurns s (c :: cs) = runTurns t cs := by
  unfold runTurns
  rw [List.length_cons, runSteps, step_cons (e := .turn c) (es := cs.map Event.turn ++ s.events) rfl]
  simp only [happen]
  rw [turn_withEvents c s, h, turn_events h]
  rfl

end Sys2Proof.Machine
end

