-- ==== Sys2Proof/Laws/Table.lean ====
section
/-! SUPPORT. The table as storage: a read after a write, entry numbers and the rows and indexes they stand for, and the finished table. -/

namespace Sys2Proof.Machine

/-- A table entry read after one was written. -/
theorem Table.get_set (t : Table) (k k' : BitVec 3) (n n' : Byte) (v : Word) :
    (t.set k n v).get k' n' = if k' = k ∧ n' = n then v else t.get k' n' := by
  have hk : k.toNat = k'.toNat ↔ k' = k := by rw [eq_comm]; exact BitVec.toNat_inj
  have hn : n.toNat = n'.toNat ↔ n' = n := by rw [eq_comm]; exact BitVec.toNat_inj
  simp only [Table.get, Table.set, Vector.get_eq_getElem, BitVec.val_toFin, Vector.getElem_set]
  by_cases h1 : k' = k
  · subst h1
    by_cases h2 : n' = n
    · subst h2
      simp
    · simp [hn, h2]
  · simp [hk, h1]

/-- The finished table holds `TAB`. -/
theorem Table.get_final (k : BitVec 3) (n : Byte) : Table.final.get k n = tabAt k n := by
  simp [Table.get, Table.final, tabAt, Vector.get_eq_getElem]

/-- Two tables that read alike everywhere are the same data. -/
theorem Table.ext_get (t t' : Table) (h : ∀ k n, t.get k n = t'.get k n) : t = t' := by
  obtain ⟨rows⟩ := t
  obtain ⟨rows'⟩ := t'
  congr 1
  apply Vector.ext
  intro i hi
  apply Vector.ext
  intro j hj
  have := h (BitVec.ofFin ⟨i, hi⟩) (BitVec.ofFin ⟨j, hj⟩)
  simpa [Table.get, Vector.get_eq_getElem] using this

/-- `TBL_IDX = 256 * row + index` below 2048. -/
theorem entry_toNat (idx : BitVec 12) (h : idx.toNat < 2048) :
    idx.toNat = 256 * (entryRow idx).toNat + (entryIndex idx).toNat := by
  simp only [entryRow, entryIndex, BitVec.extractLsb'_toNat, Nat.shiftRight_eq_div_pow, Nat.reducePow, Nat.pow_zero, Nat.div_one]
  omega

/-- Two entry numbers below 2048 with the same row and index are the same. -/
theorem entry_inj {i j : BitVec 12} (hi : i.toNat < 2048) (hj : j.toNat < 2048) (hr : entryRow i = entryRow j)
    (hn : entryIndex i = entryIndex j) : i = j := by
  apply BitVec.eq_of_toNat_eq
  rw [entry_toNat i hi, entry_toNat j hj, hr, hn]

/-- Every row and index is that of an entry number below 2048. -/
theorem entry_surj (k : BitVec 3) (n : Byte) :
    ∃ i : BitVec 12, i.toNat < 2048 ∧ i.toNat = 256 * k.toNat + n.toNat ∧ entryRow i = k ∧ entryIndex i = n := by
  have hk := k.isLt
  have hn := n.isLt
  have hv : (BitVec.ofNat 12 (256 * k.toNat + n.toNat)).toNat = 256 * k.toNat + n.toNat := by
    rw [BitVec.toNat_ofNat]
    omega
  refine ⟨BitVec.ofNat 12 (256 * k.toNat + n.toNat), by omega, hv, ?_, ?_⟩
  · apply BitVec.eq_of_toNat_eq
    simp only [entryRow, BitVec.extractLsb'_toNat, Nat.shiftRight_eq_div_pow, hv]
    omega
  · apply BitVec.eq_of_toNat_eq
    simp only [entryIndex, BitVec.extractLsb'_toNat, Nat.shiftRight_eq_div_pow, hv]
    omega

/-- The entries numbered below `n` hold their final values. -/
def FilledBelow (t : Table) (n : Nat) : Prop :=
  ∀ i : BitVec 12, i.toNat < n → t.get (entryRow i) (entryIndex i) = tabAt (entryRow i) (entryIndex i)

theorem filledBelow_zero (t : Table) : FilledBelow t 0 := fun _ h => absurd h (Nat.not_lt_zero _)

/-- A table filled below 2048 is the finished one. -/
theorem filledBelow_full {t : Table} (h : FilledBelow t 2048) (k : BitVec 3) (n : Byte) : t.get k n = tabAt k n := by
  obtain ⟨i, hi, -, rfl, rfl⟩ := entry_surj k n
  exact h i hi

/-- With everything below an entry filled, the entry-write step computes the entry's final value. -/
theorem entryValue_eq {t : Table} {idx : BitVec 12} (hidx : idx.toNat < 2048) (h : FilledBelow t idx.toNat) :
    entryValue t (entryRow idx) (entryIndex idx) = tabAt (entryRow idx) (entryIndex idx) := by
  unfold entryValue
  have hsplit := entry_toNat idx hidx
  split
  · rename_i hk
    rw [hk]
    rfl
  · rename_i hk
    have hpos : 0 < (entryRow idx).toNat := by
      rcases Nat.eq_zero_or_pos (entryRow idx).toNat with h0 | h0
      · exact absurd (BitVec.eq_of_toNat_eq (by simpa using h0)) hk
      · exact h0
    have hlt := (entryRow idx).isLt
    have hpred : (entryRow idx - 1#3).toNat = (entryRow idx).toNat - 1 := by
      rw [BitVec.toNat_sub]
      simp only [BitVec.toNat_ofNat]
      omega
    have hread : ∀ (k : BitVec 3) (n : Byte), 256 * k.toNat + n.toNat < idx.toNat → t.get k n = tabAt k n := by
      intro k n hkn
      obtain ⟨i, hi, hin, rfl, rfl⟩ := entry_surj k n
      exact h i (by omega)
    have hn := (entryIndex idx).isLt
    have hprev := hread (entryRow idx - 1#3) (entryIndex idx) (by rw [hpred]; omega)
    dsimp only
    rw [hprev]
    have hbyte := (BitVec.setWidth 8 (tabAt (entryRow idx - 1#3) (entryIndex idx))).isLt
    rw [hread 0#3 _ (by simp only [BitVec.toNat_ofNat]; omega)]
    obtain ⟨k, hk'⟩ : ∃ k, (entryRow idx).toNat = k + 1 := ⟨(entryRow idx).toNat - 1, by omega⟩
    have hk1 : (entryRow idx - 1#3).toNat = k := by omega
    simp only [tabAt, hk', hk1, tab, BitVec.toNat_ofNat, Nat.zero_mod]

/-- The entry-write step fills one more entry (everything it can do to the table, on a table filled so far). -/
theorem filledBelow_entryWrite {s : State} (hidx : s.tblIdx.toNat < 2048) (h : FilledBelow s.table s.tblIdx.toNat) :
    FilledBelow (entryWrite s).table (s.tblIdx.toNat + 1) ∧ (entryWrite s).tblIdx.toNat = s.tblIdx.toNat + 1 := by
  refine ⟨?_, ?_⟩
  · intro i hi
    show (s.table.set _ _ _).get _ _ = _
    rw [Table.get_set]
    split
    · rename_i heq
      rw [heq.1, heq.2]
      exact entryValue_eq hidx h
    · rename_i hne
      apply h i
      rcases Nat.lt_or_ge i.toNat s.tblIdx.toNat with hlt | hge
      · exact hlt
      · have : i = s.tblIdx := BitVec.eq_of_toNat_eq (by omega)
        exact absurd ⟨by rw [this], by rw [this]⟩ hne
  · show (s.tblIdx + 1#12).toNat = _
    rw [BitVec.toNat_add]
    simp only [BitVec.toNat_ofNat]
    omega

end Sys2Proof.Machine
end

