-- ==== Sys2Proof/Laws/Inv.lean ====
section
/-! SUPPORT. Lemmas about the invariant of Safety.lean: the cursor of a command in progress as numbers, what the accept step establishes, and what
a change to one part of the state leaves of it. -/

namespace Sys2Proof

open Machine

/-! ### The cursor of a command in progress, as numbers -/

/-- Two steps of the cursor are one (the `AW`-bit register wraps). -/
theorem advance_advance (aw a j k : Nat) : advance aw (advance aw a j) k = advance aw a (j + k) := by
  simp only [advance, Nat.mod_add_mod, Nat.add_assoc]

theorem advance_lt (aw a k : Nat) : advance aw a k < 2 ^ aw := Nat.mod_lt _ (Nat.two_pow_pos aw)

/-- An address that fits does not move when nothing is consumed. -/
theorem advance_zero {aw a : Nat} (h : a < 2 ^ aw) : advance aw a 0 = a := Nat.mod_eq_of_lt h

/-- The address space is a whole number of 8-byte words, so a fold step keeps the alignment even where `PTR` wraps (R35). -/
theorem advance_mod8 {aw : Nat} (haw : 4 ≤ aw) (a k : Nat) : advance aw a k % 8 = (a + k) % 8 := by
  have h : (8 : Nat) ∣ 2 ^ aw := by
    obtain ⟨m, rfl⟩ := Nat.exists_eq_add_of_le haw
    rw [Nat.pow_add]
    exact Dvd.dvd.mul_right (by decide) _
  exact Nat.mod_mod_of_dvd _ h

/-- While bytes are left `PTR` has not wrapped. -/
theorem JobInv.ptrLt {aw : Nat} {m : Memory} {n : Nat} {i : Instr} {x : Context} (h : JobInv aw m n i x) (hr : x.rem ≠ 0) :
    x.ptr = i.addr + (i.len - x.rem) := by
  have h2 := h.left
  have h1 := sum_le_of_not_badRange h.operands (by omega)
  rw [h.cursor, advance, Nat.mod_eq_of_lt (by omega)]

/-- Every byte not yet consumed can be read. -/
theorem JobInv.readable {aw : Nat} {m : Memory} {n : Nat} {i : Instr} {x : Context} (h : JobInv aw m n i x) {k : Nat} (hk : k < x.rem) :
    ∃ b, m.read? (x.ptr + k) = some b := by
  have h1 := h.ptrLt (by omega)
  have h3 := h.left
  exact read?_of_not_badRange h.operands (by omega) (by omega)

/-- Good operands stay good while `Valid` stays the same. -/
theorem BadRange_congr {m m' : Memory} (h : ∀ a, m.valid a = m'.valid a) (aw addr len : Nat) : BadRange aw m addr len ↔ BadRange aw m' addr len := by
  simp only [BadRange, h]

/-- The cursor equation when `PTR` goes up and `REM` goes down by the same number. -/
theorem cursor_step {aw addr len rem ptr k : Nat} (h : ptr = advance aw addr (len - rem)) (hr : rem ≤ len) (hk : k ≤ rem) :
    advance aw ptr k = advance aw addr (len - (rem - k)) := by
  rw [h, advance_advance, show len - rem + k = len - (rem - k) by omega]

/-- In `BS_RUN` the command in progress is a bit-serial one. -/
theorem JobInv.isBitSerial {aw : Nat} {m : Memory} {n : Nat} {i : Instr} {x : Context} (h : JobInv aw m n i x) (hq : x.seq = .bsRun) : ∃ t ini p, i.bitSerial? = some (t, ini, p) := by
  cases hi : i.bitSerial? with
  | some v => exact ⟨v.1, v.2.1, v.2.2, rfl⟩
  | none =>
    cases i <;> simp [Instr.bitSerial?] at hi
    have := (h.tableDriven _ _ _ _ rfl).1
    simp [hq] at this

/-- In every other busy phase it is `C32C.UPDATE`. -/
theorem JobInv.isTableDriven {aw : Nat} {m : Memory} {n : Nat} {i : Instr} {x : Context} (h : JobInv aw m n i x) (hq : x.seq ≠ .bsRun) : ∃ ctx arg addr len, i = .c32cUpdate ctx arg addr len := by
  cases hi : i.bitSerial? with
  | some v => exact absurd (h.bitSerial v.1 v.2.1 v.2.2 hi).1 hq
  | none => cases i <;> simp [Instr.bitSerial?] at hi; exact ⟨_, _, _, _, rfl⟩

/-- The bytes consumed after a step that consumes `k` more. -/
theorem JobInv.message_consumed {aw : Nat} {m : Memory} {n : Nat} {i : Instr} {x y : Context} (h : JobInv aw m n i x) {k : Nat}
    (hk : k ≤ x.rem) (hy : y.rem = x.rem - k) (hk0 : 0 < k) :
    m.message i.addr (consumed i y) = m.message i.addr (consumed i x) ++ m.message x.ptr k := by
  have h1 := h.ptrLt (by omega)
  have h3 := h.left
  rw [show consumed i y = consumed i x + k by simp only [consumed, hy]; omega, Memory.message_add, h1]
  rfl

/-- `JobInv` looks at no byte outside the message. -/
theorem JobInv.congr_mem {aw : Nat} {m m' : Memory} {n : Nat} {i : Instr} {x : Context} (h : JobInv aw m n i x) (hv : ∀ a, m.valid a = m'.valid a)
    (hr : ∀ a, i.addr ≤ a → a < i.addr + i.len → m.read? a = m'.read? a) : JobInv aw m' n i x := by
  have hmsg : m.message i.addr (consumed i x) = m'.message i.addr (consumed i x) := by
    apply Memory.message_congr
    intro j h1 h2; apply hr j h1
    have : consumed i x ≤ i.len := by simp [consumed]
    omega
  refine ⟨h.routed, h.fits, by rw [← BadRange_congr hv]; exact h.operands, h.left, h.cursor, ?_, ?_, h.beforeHead, h.foldAligned, h.tailShort⟩
  · intro t ini p hb; rw [← hmsg]; exact h.bitSerial t ini p hb
  · intro ctx arg addr len hi
    have := h.tableDriven ctx arg addr len hi
    subst hi
    exact hmsg ▸ this

/-- The accept step establishes `JobInv`. -/
theorem loadOf_jobInv {aw : Nat} {m : Memory} {i : Instr} (x : Context) (hf : Fits aw i.addr i.len) (hok : ¬ BadRange aw m i.addr i.len) :
    JobInv aw m i.ctx i (loadOf i x) := by
  refine ⟨rfl, hf, hok, by simp, by simp [advance_zero hf.addr], ?_, ?_, by simp, ?_, ?_⟩
  · intro t ini p hb
    rw [(loadOf_bitSerial hb x).1]
    simp [consumed, bscrc]
  · rintro ctx arg addr len rfl
    simp [loadOf, loadCrc32c, consumed, Instr.len]
  · intro h; rw [loadOf_seq] at h; split at h <;> simp at h
  · intro h; rw [loadOf_seq] at h; split at h <;> simp at h

/-! ### The invariant of the machine when one part of the state changes -/

/-- A write to one context keeps what holds of the others. -/
theorem Inv.setCtx_jobs {s : State} {c : Nat} {x : Context} (h : Inv s) (hx : ContextInv s.aw s.mem c x) :
    ∀ n y, (s.setCtx c x).ctx? n = some y → ContextInv s.aw s.mem n y := by
  intro n y hy
  rcases State.ctx?_setCtx_cases hy with ⟨rfl, rfl⟩ | ⟨hn, hy'⟩
  · exact hx
  · exact h.jobs n y hy'

/-- A write to one context keeps the widths of the cursors. -/
theorem Inv.setCtx_cursors {s : State} {c : Nat} {x : Context} (h : Inv s) (hx : x.ptr < 2 ^ s.aw ∧ x.rem < 2 ^ s.aw) :
    ∀ n y, (s.setCtx c x).ctx? n = some y → y.ptr < 2 ^ s.aw ∧ y.rem < 2 ^ s.aw := by
  intro n y hy
  rcases State.ctx?_setCtx_cases hy with ⟨rfl, rfl⟩ | ⟨_, hy'⟩
  · exact hx
  · exact h.cursors n y hy'

/-- A context replaced by one that, like it, is not the builder. -/
theorem Inv.setCtx {s : State} {c : Nat} {x y : Context} (h : Inv s) (hx : s.ctx? c = some x) (hxb : x.seq ≠ .cBuild) (hyb : y.seq ≠ .cBuild)
    (hj : ContextInv s.aw s.mem c y) (hw : y.ptr < 2 ^ s.aw ∧ y.rem < 2 ^ s.aw) (hp : y.seq = .cHead ∨ y.seq = .cFold ∨ y.seq = .cTail → s.tblState = .ready) : Inv (s.setCtx c y) := by
  refine ⟨h.width, h.memory, h.space, h.setCtx_cursors hw, h.port, by have := h.contexts; simpa using this, h.setCtx_jobs hj, ?_, ?_, h.index, h.partial_, h.final, ?_⟩
  · intro m n a b ha hb hab hbb
    rcases State.ctx?_setCtx_cases ha with ⟨rfl, rfl⟩ | ⟨_, ha'⟩
    · exact absurd hab hyb
    rcases State.ctx?_setCtx_cases hb with ⟨rfl, rfl⟩ | ⟨_, hb'⟩
    · exact absurd hbb hyb
    exact h.oneBuilder m n a b ha' hb' hab hbb
  · rw [show (s.setCtx c y).tblState = s.tblState from rfl, ← h.builderIff]
    constructor
    · rintro ⟨n, z, hz, hzb⟩
      rcases State.ctx?_setCtx_cases hz with ⟨rfl, rfl⟩ | ⟨_, hz'⟩
      · exact absurd hzb hyb
      · exact ⟨n, z, hz', hzb⟩
    · rintro ⟨n, z, hz, hzb⟩
      refine ⟨n, z, ?_, hzb⟩
      rw [State.ctx?_setCtx_other]; exact hz
      rintro rfl; rw [hx] at hz; cases hz; exact hxb hzb
  · intro n z hz hzq
    rcases State.ctx?_setCtx_cases hz with ⟨rfl, rfl⟩ | ⟨_, hz'⟩
    · exact hp hzq
    · exact h.pastGuard n z hz' hzq

/-- A busy context has a command in progress. -/
theorem ContextInv.job {aw : Nat} {m : Memory} {n : Nat} {x : Context} (h : ContextInv aw m n x) (hq : x.seq ≠ .idle) : ∃ i, x.job = some i ∧ JobInv aw m n i x := by
  unfold ContextInv at h
  split at h
  · exact absurd h hq
  · rename_i i hi; exact ⟨i, hi, h.2⟩

theorem ContextInv.of {aw : Nat} {m : Memory} {n : Nat} {x : Context} {i : Instr} (hj : x.job = some i) (hq : x.seq ≠ .idle) (h : JobInv aw m n i x) : ContextInv aw m n x := by
  unfold ContextInv; rw [hj]; exact ⟨hq, h⟩

/-- The invariant looks at nothing but the parameters, the block, the memory and the commands waiting at the port. -/
theorem Inv.congr {s t : State} (h : Inv s) (h0 : t.aw = s.aw) (h1 : t.ctxs = s.ctxs) (h2 : t.tblState = s.tblState) (h3 : t.tblIdx = s.tblIdx)
    (h4 : t.table = s.table) (h5 : t.mem = s.mem) (h6 : ∀ k ∈ t.port, k ∈ s.port) : Inv t := by
  have hc : ∀ n, t.ctx? n = s.ctx? n := fun n => State.ctx?_of_ctxs_eq h1 n
  constructor
  · rw [h0]; exact h.width
  · rw [h5]; exact h.memory
  · rw [h0, h5]; exact h.space
  · simp only [hc, h0]; exact h.cursors
  · intro k hk; rw [h0]; exact h.port k (h6 k hk)
  · rw [h1]; exact h.contexts
  · simp only [hc, h0, h5]; exact h.jobs
  · simp only [hc]; exact h.oneBuilder
  · simp only [hc, h2]; exact h.builderIff
  · rw [h3]; exact h.index
  · rw [h2, h3, h4]; exact h.partial_
  · rw [h2, h4]; exact h.final
  · simp only [hc, h2]; exact h.pastGuard

/-- The command a context would take has operands that fit their fields. -/
theorem Inv.fits {s : State} (h : Inv s) {c : Nat} {k : Command} {i : Instr} (hk : s.nextCommand c = some k) (hi : decode k = .ok i) :
    Fits s.aw i.addr i.len := by
  rw [(decode_operands hi).2.1, (decode_operands hi).2.2]
  exact h.port k (nextCommand_ctx hk).2

/-- Once `READY`, a table read is `TAB` (R111). -/
theorem Inv.table_get {s : State} (h : Inv s) (ht : s.tblState = .ready) : s.table.get = tabAt := by
  funext k n; exact h.final ht k n

end Sys2Proof
end

