-- ==== Sys2Proof/Laws/PerInstr.lean ====
section
/-! SUPPORT. One lemma for each command, about its encoding as syntax: the class, the zero bits and the tag of the `OP` that encodes it (30_encoding.md
rules R50, R51, R53, R55). -/

namespace Sys2Proof.Laws

/-- The `OP` of a command has a legal class, zeros in `OP[3:2]`, and the variant tag that the command's meaning latches (0 for class 2). -/
def Legal.Statement (i : Instr) : Prop :=
  (opClass (encode i).op).toNat ≤ 2 ∧ opZero (encode i).op = 0#2 ∧
    match i.bitSerial? with
    | some (tag, _, _) => (opClass (encode i).op).toNat ≤ 1 ∧ opTag (encode i).op = tag
    | none => opClass (encode i).op = 2#4 ∧ opTag (encode i).op = 0#2

theorem Legal.bsMpeg2 (ctx : Nat) (addr len : Nat) : Legal.Statement (.bsMpeg2 ctx addr len) := by
  simp only [Legal.Statement, encode, Instr.bitSerial?]
  decide

theorem Legal.bsXfer (ctx : Nat) (addr len : Nat) : Legal.Statement (.bsXfer ctx addr len) := by
  simp only [Legal.Statement, encode, Instr.bitSerial?]
  decide

theorem Legal.bsAixm (ctx : Nat) (addr len : Nat) : Legal.Statement (.bsAixm ctx addr len) := by
  simp only [Legal.Statement, encode, Instr.bitSerial?]
  decide

theorem Legal.bsiMpeg2 (ctx : Nat) (arg : Word) (addr len : Nat) : Legal.Statement (.bsiMpeg2 ctx arg addr len) := by
  simp only [Legal.Statement, encode, Instr.bitSerial?]
  decide

theorem Legal.bsiXfer (ctx : Nat) (arg : Word) (addr len : Nat) : Legal.Statement (.bsiXfer ctx arg addr len) := by
  simp only [Legal.Statement, encode, Instr.bitSerial?]
  decide

theorem Legal.bsiAixm (ctx : Nat) (arg : Word) (addr len : Nat) : Legal.Statement (.bsiAixm ctx arg addr len) := by
  simp only [Legal.Statement, encode, Instr.bitSerial?]
  decide

theorem Legal.c32cUpdate (ctx : Nat) (arg : Word) (addr len : Nat) : Legal.Statement (.c32cUpdate ctx arg addr len) := by
  simp only [Legal.Statement, encode, Instr.bitSerial?]
  decide

end Sys2Proof.Laws
end

