-- ==== Sys2Proof/Laws/Turns.lean ====
section
/-! SUPPORT. The turns once more, forward: what the step of each phase does when its condition holds; and runs along turns put end to end. -/

namespace Sys2Proof.Machine

/-! ### Turns, forward: what each phase does when its condition holds -/

theorem turn_taken {c : Nat} {s : State} {x : Context} {k : Command} {i : Instr} (hx : s.ctx? c = some x) (hq : x.seq = .idle)
    (hk : s.nextCommand c = some k) (hi : decode k = .ok i) (hok : ¬ BadRange s.aw s.mem i.addr i.len) :
    turn c s = .next ((s.dropCommand c).setCtx c (loadOf i x)) := by
  have hc : i.ctx = c := by rw [(decode_operands hi).1, (nextCommand_ctx hk).1]
  have h := accept_taken (load := loadOf i) hx hq hok
  simp [turn, hx, hq, acceptStep, hk, hi, exec_eq_accept, hc, h]

theorem turn_absorb {c : Nat} {s : State} {x : Context} {b : Byte} {p : Word} (hx : s.ctx? c = some x) (hq : x.seq = .bsRun)
    (hr : x.rem ≠ 0) (hb : s.mem.read? x.ptr = some b) (hp : poly? x.var = some p) :
    turn c s = .next (s.setCtx c { x with r := absorb x.r b p, ptr := advance s.aw x.ptr 1, rem := x.rem - 1 }) := by
  simp [turn, hx, hq, bitSerialStep, hr, absorbStep, hb, hp]

theorem turn_finishBitSerial {c : Nat} {s : State} {x : Context} (hx : s.ctx? c = some x) (hq : x.seq = .bsRun) (hr : x.rem = 0) :
    turn c s = .next (finishBitSerial c x s) := by
  simp [turn, hx, hq, bitSerialStep, hr]

theorem turn_guardWon {c : Nat} {s : State} {x : Context} (hx : s.ctx? c = some x) (hq : x.seq = .cGuard) (ht : s.tblState = .empty) :
    turn c s = .next ({ s with tblState := .building, tblIdx := 0#12 }.setCtx c { x with seq := .cBuild }) := by
  simp [turn, hx, hq, guardStep, ht]

theorem turn_guardPassed {c : Nat} {s : State} {x : Context} (hx : s.ctx? c = some x) (hq : x.seq = .cGuard) (ht : s.tblState = .ready) :
    turn c s = .next (s.setCtx c { x with seq := .cHead }) := by
  simp [turn, hx, hq, guardStep, ht]

theorem turn_held {c : Nat} {s : State} {x : Context} (hx : s.ctx? c = some x) (hq : x.seq = .cGuard) (ht : s.tblState = .building) :
    turn c s = .next s := by
  simp [turn, hx, hq, guardStep, ht]

theorem turn_entryWrite {c : Nat} {s : State} {x : Context} (hx : s.ctx? c = some x) (hq : x.seq = .cBuild) (hi : s.tblIdx.toNat < 2048) :
    turn c s = .next (entryWrite s) := by
  simp [turn, hx, hq, buildStep, hi]

theorem turn_publish {c : Nat} {s : State} {x : Context} (hx : s.ctx? c = some x) (hq : x.seq = .cBuild) (hi : s.tblIdx.toNat = 2048) :
    turn c s = .next (publishStep c x s) := by
  simp [turn, hx, hq, buildStep, hi]

theorem turn_headByte {c : Nat} {s : State} {x : Context} {b : Byte} (hx : s.ctx? c = some x) (hq : x.seq = .cHead)
    (ha : x.ptr % 8 ≠ 0) (hr : x.rem ≠ 0) (hb : s.mem.read? x.ptr = some b) :
    turn c s = .next (s.setCtx c { x with c := cbyte s.table.get x.c b, ptr := advance s.aw x.ptr 1, rem := x.rem - 1 }) := by
  simp [turn, hx, hq, headStep, ha, hr, byteStep, hb]

theorem turn_leaveHead {c : Nat} {s : State} {x : Context} (hx : s.ctx? c = some x) (hq : x.seq = .cHead)
    (hr : x.ptr % 8 = 0 ∨ x.rem = 0) : turn c s = .next (phaseChange c x .cFold s) := by
  have : ¬ (x.ptr % 8 ≠ 0 ∧ x.rem ≠ 0) := by tauto
  simp only [turn, hx, hq, headStep, if_neg this]

theorem turn_fold {c : Nat} {s : State} {x : Context} {w : DWord} (hx : s.ctx? c = some x) (hq : x.seq = .cFold)
    (hr : 8 ≤ x.rem) (ha : x.ptr % 8 = 0) (hw : s.mem.read8? x.ptr = some w) :
    turn c s = .next (s.setCtx c { x with c := cfold s.table.get x.c w, ptr := advance s.aw x.ptr 8, rem := x.rem - 8 }) := by
  simp [turn, hx, hq, foldPhaseStep, hr, foldStep, ha, hw]

theorem turn_leaveFold {c : Nat} {s : State} {x : Context} (hx : s.ctx? c = some x) (hq : x.seq = .cFold) (hr : x.rem < 8) :
    turn c s = .next (phaseChange c x .cTail s) := by
  have : ¬ 8 ≤ x.rem := by omega
  simp only [turn, hx, hq, foldPhaseStep, if_neg this]

theorem turn_tailByte {c : Nat} {s : State} {x : Context} {b : Byte} (hx : s.ctx? c = some x) (hq : x.seq = .cTail)
    (hr : x.rem ≠ 0) (hb : s.mem.read? x.ptr = some b) :
    turn c s = .next (s.setCtx c { x with c := cbyte s.table.get x.c b, ptr := advance s.aw x.ptr 1, rem := x.rem - 1 }) := by
  simp [turn, hx, hq, tailStep, hr, byteStep, hb]

theorem turn_finishCrc32c {c : Nat} {s : State} {x : Context} (hx : s.ctx? c = some x) (hq : x.seq = .cTail) (hr : x.rem = 0) :
    turn c s = .next (finishCrc32c c x s) := by
  simp [turn, hx, hq, tailStep, hr]

/-- Runs along turns compose. -/
theorem runTurns_append {s t : State} (cs ds : List Nat) (h : runTurns s cs = .next t) : runTurns s (cs ++ ds) = runTurns t ds := by
  induction cs generalizing s with
  | nil => rw [runTurns_nil] at h; cases h; rfl
  | cons c cs ih =>
    cases ht : turn c s with
    | next u =>
      rw [runTurns_cons cs ht] at h
      rw [List.cons_append, runTurns_cons (cs ++ ds) ht]
      exact ih h
    | fault r =>
      unfold runTurns at h
      rw [List.length_cons, runSteps, step_cons (e := .turn c) (es := cs.map Event.turn ++ s.events) rfl] at h
      simp only [happen] at h
      rw [turn_withEvents c s, ht] at h
      simp [mapNext] at h
    | refused r =>
      unfold runTurns at h
      rw [List.length_cons, runSteps, step_cons (e := .turn c) (es := cs.map Event.turn ++ s.events) rfl] at h
      simp only [happen] at h
      rw [turn_withEvents c s, ht] at h
      simp [mapNext] at h

end Sys2Proof.Machine
end

