-- ==== Sys2Proof/Machine/Assembler.lean ====
section
/-! DEFINITION. The text form of a command, for writing test programs (30_encoding.md rule R60). It is no part of the hardware: it turns one
line into the five fields of a command, which the host then presents at the port. Lexical details R60 does not settle are listed in
assumption log 14. -/

namespace Sys2Proof.Machine.Asm

/-- A token of a line. -/
inductive Token where
  | word (cs : List Char)
  | lbracket
  | rbracket
  | comma
  | arrow
deriving DecidableEq, Repr

/-- A line assembled: the command, and the host variable that the result of an `OK` response is bound to. The binding is the host's. -/
structure Line where
  command : Command
  bind    : Option (List Char)
deriving DecidableEq, Repr

/-- The word collected so far, closed. -/
def flush (w : List Char) (ts : List Token) : List Token := if w.isEmpty then ts else .word w.reverse :: ts

/-- The tokens of a line; `w` is the word being collected, in reverse. A `;` starts a comment. -/
def tokens : List Char → List Char → List Token
  | w, [] => flush w []
  | w, '-' :: '>' :: cs => flush w (.arrow :: tokens [] cs)
  | w, ch :: cs =>
    if ch = ';' then flush w []
    else if ch = ' ' ∨ ch = '\t' then flush w (tokens [] cs)
    else if ch = '[' then flush w (.lbracket :: tokens [] cs)
    else if ch = ']' then flush w (.rbracket :: tokens [] cs)
    else if ch = ',' then flush w (.comma :: tokens [] cs)
    else tokens (ch :: w) cs

/-- The value of one digit. -/
def digit? (ch : Char) : Option Nat :=
  if '0' ≤ ch ∧ ch ≤ '9' then some (ch.toNat - '0'.toNat)
  else if 'a' ≤ ch ∧ ch ≤ 'f' then some (ch.toNat - 'a'.toNat + 10)
  else if 'A' ≤ ch ∧ ch ≤ 'F' then some (ch.toNat - 'A'.toNat + 10)
  else none

/-- A run of digits in a base, after the value `acc` of those already read. -/
def digits? (base : Nat) : Nat → List Char → Option Nat
  | acc, [] => some acc
  | acc, ch :: cs =>
    match digit? ch with
    | some d => if d < base then digits? base (acc * base + d) cs else none
    | none => none

/-- A number in the notation of 00_scope.md section 5.1: `0x` hexadecimal, `0b` binary, a plain numeral decimal. -/
def number? : List Char → Option Nat
  | [] => none
  | '0' :: 'x' :: ch :: cs => digits? 16 0 (ch :: cs)
  | '0' :: 'b' :: ch :: cs => digits? 2 0 (ch :: cs)
  | cs => digits? 10 0 cs

/-- A number that fits in `w` bits. -/
def field? (w : Nat) (cs : List Char) : Option (BitVec w) :=
  match number? cs with
  | some n => if n < 2 ^ w then some (BitVec.ofNat w n) else none
  | none => none

/-- An address or a count: a number that fits in `AW` bits. -/
def addr? (aw : Nat) (cs : List Char) : Option Nat :=
  match number? cs with
  | some n => if n < 2 ^ aw then some n else none
  | none => none

/-- A 32-bit operand: a number, or a host variable bound by an earlier line. -/
def word? (env : List (List Char × Word)) (cs : List Char) : Option Word :=
  match field? 32 cs with
  | some v => some v
  | none => env.lookup cs

/-- The `OP` of a class 0 mnemonic. -/
def fixedOp? (m : List Char) : Option (BitVec 8) :=
  if m = ['b', 's', '.', 'm', 'p', 'e', 'g', '2'] then some 0x00#8
  else if m = ['b', 's', '.', 'x', 'f', 'e', 'r'] then some 0x01#8
  else if m = ['b', 's', '.', 'a', 'i', 'x', 'm'] then some 0x02#8
  else none

/-- The `OP` of a mnemonic that takes a 32-bit operand. -/
def explicitOp? (m : List Char) : Option (BitVec 8) :=
  if m = ['b', 's', 'i', '.', 'm', 'p', 'e', 'g', '2'] then some 0x10#8
  else if m = ['b', 's', 'i', '.', 'x', 'f', 'e', 'r'] then some 0x11#8
  else if m = ['b', 's', 'i', '.', 'a', 'i', 'x', 'm'] then some 0x12#8
  else if m = ['c', '3', '2', 'c', '.', 'u', 'p', 'd', 'a', 't', 'e'] then some 0x20#8
  else none

/-- The pseudo-instruction `c32c [addr], len` stands for `c32c.update 0, [addr], len`. -/
def pseudoOp? (m : List Char) : Option (BitVec 8) :=
  if m = ['c', '3', '2', 'c'] then some 0x20#8 else fixedOp? m

/-- The command of the tokens after the `@ctx` prefix. -/
def command? (aw : Nat) (env : List (List Char × Word)) (ctx : Nat) : List Token → Option Command
  | [.word m, .lbracket, .word a, .rbracket, .comma, .word l] =>
    match pseudoOp? (m.map Char.toLower), addr? aw a, addr? aw l with
    | some op, some addr, some len => some { ctx := ctx, op := op, arg := 0#32, addr := addr, len := len }
    | _, _, _ => none
  | [.word m, .word v, .comma, .lbracket, .word a, .rbracket, .comma, .word l] =>
    match explicitOp? (m.map Char.toLower), word? env v, addr? aw a, addr? aw l with
    | some op, some arg, some addr, some len => some { ctx := ctx, op := op, arg := arg, addr := addr, len := len }
    | _, _, _, _ => none
  | [.word m, .word o, .word v, .comma, .lbracket, .word a, .rbracket, .comma, .word l] =>
    if m.map Char.toLower = ['.', 'o', 'p'] then
      match field? 8 o, word? env v, addr? aw a, addr? aw l with
      | some op, some arg, some addr, some len => some { ctx := ctx, op := op, arg := arg, addr := addr, len := len }
      | _, _, _, _ => none
    else none
  | _ => none

/-- The tokens before and after the `->` suffix. -/
def splitBind : List Token → List Token × List Token
  | [] => ([], [])
  | .arrow :: ts => ([], .arrow :: ts)
  | t :: ts => (t :: (splitBind ts).1, (splitBind ts).2)

/-- The `@ctx` prefix (context 0 without one) and the command after it. -/
def prefixed? (aw : Nat) (env : List (List Char × Word)) : List Token → Option Command
  | .word ('@' :: n) :: ts =>
    match number? n with
    | some c => command? aw env c ts
    | none => none
  | ts => command? aw env 0 ts

/-- One line of R60 for a block with `aw`-bit addresses, with the host variables bound so far. -/
def assemble (aw : Nat) (env : List (List Char × Word)) (line : List Char) : Option Line :=
  match splitBind (tokens [] line) with
  | (ts, []) => (prefixed? aw env ts).map fun k => { command := k, bind := none }
  | (ts, [.arrow, .word name]) => (prefixed? aw env ts).map fun k => { command := k, bind := some name }
  | _ => none

end Sys2Proof.Machine.Asm
end

