-- ==== Sys2Proof/WellFormed.lean ====
section
/-! DEFINITION. When a decoded command can stand at the port of a block with `nctx` contexts and `aw`-bit addresses (R50): `CTX` names a
context, and `ADDR` and `LEN` fit their `AW` bits. `ARG` is 32 bits by its type. -/

namespace Sys2Proof

/-- The three ranges of R50. -/
def operandsFit (nctx aw ctx addr len : Nat) : Bool := decide (ctx < nctx) && decide (addr < 2 ^ aw) && decide (len < 2 ^ aw)

/-- The command can stand at the port (R50). -/
def Instr.wellFormed (nctx aw : Nat) : Instr → Bool
  | .bsMpeg2 ctx addr len => operandsFit nctx aw ctx addr len
  | .bsXfer ctx addr len => operandsFit nctx aw ctx addr len
  | .bsAixm ctx addr len => operandsFit nctx aw ctx addr len
  | .bsiMpeg2 ctx _ addr len => operandsFit nctx aw ctx addr len
  | .bsiXfer ctx _ addr len => operandsFit nctx aw ctx addr len
  | .bsiAixm ctx _ addr len => operandsFit nctx aw ctx addr len
  | .c32cUpdate ctx _ addr len => operandsFit nctx aw ctx addr len

end Sys2Proof
end

