-- ==== Sys2Proof/Tests/Slice0.lean ====
section
/-! SUPPORT. Tests of the model, each a named theorem: the WellFormed smoke, decoding of words written out from 30_encoding.md, single steps, and
for every obligation with hypotheses a witness that meets them. Expected values are those of spec/95_test_vectors.md and of the rules' own
examples, unless a comment says otherwise. -/

namespace Sys2Proof.Tests

open Sys2Proof Sys2Proof.Machine

/-! ### Small states -/

/-- ASCII "123456789", the message of the source's check values. -/
def msg9 : List Byte := [0x31#8, 0x32#8, 0x33#8, 0x34#8, 0x35#8, 0x36#8, 0x37#8, 0x38#8, 0x39#8]

/-- `msg9` at addresses `0x1000` to `0x1008`; nothing else is `Valid`. -/
def mem9 : Memory := { cells := [(0x1000, 0x31#8), (0x1001, 0x32#8), (0x1002, 0x33#8), (0x1003, 0x34#8), (0x1004, 0x35#8),
  (0x1005, 0x36#8), (0x1006, 0x37#8), (0x1007, 0x38#8), (0x1008, 0x39#8)] }

/-- One byte at the last address of the address space. -/
def memTop : Memory := { cells := [(2 ^ 64 - 1, 0x31#8)] }

/-- A context between commands. -/
def idleCtx : Context := { r := 0x11#32, c := 0x22#32, var := 3#2, ptr := 0x33, rem := 0x44, seq := .idle, job := none }

/-- A context running a bit-serial command over `msg9`. -/
def bsCtx (i : Instr) (var : BitVec 2) (r : Word) (ptr rem : Nat) : Context :=
  { idleCtx with r := r, var := var, ptr := ptr, rem := rem, seq := .bsRun, job := some i }

/-- The command of the table unit that the witnesses run. -/
def upd : Instr := .c32cUpdate 0 0#32 0x1000 9

/-- A context running `upd`. -/
def cCtx (q : Seq) (c : Word) (ptr rem : Nat) : Context :=
  { idleCtx with c := c, ptr := ptr, rem := rem, seq := q, job := some upd }

/-- A block with the given contexts and guard, the finished table in its storage, and `mem9`. -/
def block (xs : List Context) (ts : TblState) (idx : BitVec 12) (port : List Command) (es : List Event) : State :=
  { aw := 64, ctxs := xs, tblState := ts, tblIdx := idx, table := Table.final, mem := mem9, port := port, outbox := [], events := es, freeCtr := 7 }

/-- The state a step reaches, if it reaches one. -/
def nx : Host.Outcome State Fault Refusal → Option State
  | .next s => some s
  | _ => none

/-- Context 0 after a step. -/
def ctx0 (o : Host.Outcome State Fault Refusal) : Option Context := (nx o).bind fun s => s.ctx? 0

/-- The responses after a step. -/
def answers (o : Host.Outcome State Fault Refusal) : Option (List Reply) := (nx o).map fun s => s.outbox

/-! ### WellFormed: for each check an ill-formed term it refuses, for each command (`NCTX = 2`, `AW = 4`) -/

theorem test_illFormed_ctx :
    Instr.wellFormed 2 4 (.bsMpeg2 2 0 0) = false ∧
    Instr.wellFormed 2 4 (.bsXfer 2 0 0) = false ∧
    Instr.wellFormed 2 4 (.bsAixm 2 0 0) = false ∧
    Instr.wellFormed 2 4 (.bsiMpeg2 2 0#32 0 0) = false ∧
    Instr.wellFormed 2 4 (.bsiXfer 2 0#32 0 0) = false ∧
    Instr.wellFormed 2 4 (.bsiAixm 2 0#32 0 0) = false ∧
    Instr.wellFormed 2 4 (.c32cUpdate 2 0#32 0 0) = false := by decide

theorem test_illFormed_addr :
    Instr.wellFormed 2 4 (.bsMpeg2 1 16 0) = false ∧
    Instr.wellFormed 2 4 (.bsXfer 1 16 0) = false ∧
    Instr.wellFormed 2 4 (.bsAixm 1 16 0) = false ∧
    Instr.wellFormed 2 4 (.bsiMpeg2 1 0#32 16 0) = false ∧
    Instr.wellFormed 2 4 (.bsiXfer 1 0#32 16 0) = false ∧
    Instr.wellFormed 2 4 (.bsiAixm 1 0#32 16 0) = false ∧
    Instr.wellFormed 2 4 (.c32cUpdate 1 0#32 16 0) = false := by decide

theorem test_illFormed_len :
    Instr.wellFormed 2 4 (.bsMpeg2 1 0 16) = false ∧
    Instr.wellFormed 2 4 (.bsXfer 1 0 16) = false ∧
    Instr.wellFormed 2 4 (.bsAixm 1 0 16) = false ∧
    Instr.wellFormed 2 4 (.bsiMpeg2 1 0#32 0 16) = false ∧
    Instr.wellFormed 2 4 (.bsiXfer 1 0#32 0 16) = false ∧
    Instr.wellFormed 2 4 (.bsiAixm 1 0#32 0 16) = false ∧
    Instr.wellFormed 2 4 (.c32cUpdate 1 0#32 0 16) = false := by decide

theorem test_wellFormed : Instr.wellFormed 2 4 (.bsMpeg2 1 15 15) = true ∧ Instr.wellFormed 2 64 upd = true := by decide

/-! ### Decoding: `OP` written out bit by bit from the table of R55 -/

theorem test_decode_bsMpeg2 :
    decode { ctx := 1, op := 0b00000000#8, arg := 0xDEADBEEF#32, addr := 0x1000, len := 9 } = .ok (.bsMpeg2 1 0x1000 9) := rfl
theorem test_decode_bsXfer :
    decode { ctx := 1, op := 0b00000001#8, arg := 0xDEADBEEF#32, addr := 0x1000, len := 9 } = .ok (.bsXfer 1 0x1000 9) := rfl
theorem test_decode_bsAixm :
    decode { ctx := 1, op := 0b00000010#8, arg := 0xDEADBEEF#32, addr := 0x1000, len := 9 } = .ok (.bsAixm 1 0x1000 9) := rfl
theorem test_decode_bsiMpeg2 :
    decode { ctx := 1, op := 0b00010000#8, arg := 0xA695C4AA#32, addr := 0x1004, len := 5 } =
      .ok (.bsiMpeg2 1 0xA695C4AA#32 0x1004 5) := rfl
theorem test_decode_bsiXfer :
    decode { ctx := 1, op := 0b00010001#8, arg := 0xA695C4AA#32, addr := 0x1004, len := 5 } =
      .ok (.bsiXfer 1 0xA695C4AA#32 0x1004 5) := rfl
theorem test_decode_bsiAixm :
    decode { ctx := 1, op := 0b00010010#8, arg := 0xA695C4AA#32, addr := 0x1004, len := 5 } =
      .ok (.bsiAixm 1 0xA695C4AA#32 0x1004 5) := rfl
theorem test_decode_c32cUpdate :
    decode { ctx := 1, op := 0b00100000#8, arg := 0xF63AF4EE#32, addr := 0x1004, len := 5 } =
      .ok (.c32cUpdate 1 0xF63AF4EE#32 0x1004 5) := rfl

/-- Neighbours of the legal values: the reserved tag, a bit of `ZERO`, a tag in class 2, a reserved class (R56). -/
theorem test_decode_illegal :
    [0x03#8, 0x04#8, 0x08#8, 0x13#8, 0x14#8, 0x21#8, 0x22#8, 0x24#8, 0x30#8, 0x80#8, 0xFF#8].all (fun op =>
      match decode { ctx := 0, op := op, arg := 0#32, addr := 0, len := 0 } with
      | .ok _ => false
      | .error e => decide (e = .illegalCommand op)) = true := by decide

/-- The model's own layout of a whole command in one number (assumption log 5): `OP = 0x20`, `ARG = 1`, `ADDR = 2`, `LEN = 3`. -/
theorem test_commandOfWord :
    decodeTableWord 168 (0x20 + 1 * 2 ^ 8 + 2 * 2 ^ 40 + 3 * 2 ^ 104) = some (.c32cUpdate 0 1#32 2 3) := by decide

/-- Every row of the opcode table runs as the first command after reset: with `LEN = 0` it leaves `IDLE`. -/
theorem test_first_after_reset :
    [0x00, 0x01, 0x02, 0x10, 0x11, 0x12].all (fun w => (ctx0 (step (State.reset.withFetchWord 8 w))).map (·.seq) == some .bsRun) = true ∧
    (ctx0 (step (State.reset.withFetchWord 8 0x20))).map (·.seq) = some .cGuard := by decide

/-! ### The seven commands: the accept step, and the result -/

theorem test_accept_bsMpeg2 : ctx0 (exec (.bsMpeg2 0 0x1000 9) (block [idleCtx] .empty 0#12 [] [])) =
    some (bsCtx (.bsMpeg2 0 0x1000 9) 0#2 0xFFFFFFFF#32 0x1000 9) := by decide
theorem test_result_bsMpeg2 : (Instr.bsMpeg2 0 0x1000 9).result mem9 = 0x0376E6E7#32 := by decide +kernel

theorem test_accept_bsXfer : ctx0 (exec (.bsXfer 0 0x1000 9) (block [idleCtx] .empty 0#12 [] [])) =
    some (bsCtx (.bsXfer 0 0x1000 9) 1#2 0#32 0x1000 9) := by decide
theorem test_result_bsXfer : (Instr.bsXfer 0 0x1000 9).result mem9 = 0xBD0BE338#32 := by decide +kernel

theorem test_accept_bsAixm : ctx0 (exec (.bsAixm 0 0x1000 9) (block [idleCtx] .empty 0#12 [] [])) =
    some (bsCtx (.bsAixm 0 0x1000 9) 2#2 0#32 0x1000 9) := by decide
theorem test_result_bsAixm : (Instr.bsAixm 0 0x1000 9).result mem9 = 0x3010BF7F#32 := by decide +kernel

/-- `ARG` is loaded as given; resumed after "1234" (R83). -/
theorem test_accept_bsiMpeg2 : ctx0 (exec (.bsiMpeg2 0 0xA695C4AA#32 0x1004 5) (block [idleCtx] .ready 0#12 [] [])) =
    some (bsCtx (.bsiMpeg2 0 0xA695C4AA#32 0x1004 5) 0#2 0xA695C4AA#32 0x1004 5) := by decide
theorem test_result_bsiMpeg2 : (Instr.bsiMpeg2 0 0xA695C4AA#32 0x1004 5).result mem9 = 0x0376E6E7#32 := by decide +kernel

theorem test_accept_bsiXfer : ctx0 (exec (.bsiXfer 0 0xA150F069#32 0x1004 5) (block [idleCtx] .ready 0#12 [] [])) =
    some (bsCtx (.bsiXfer 0 0xA150F069#32 0x1004 5) 1#2 0xA150F069#32 0x1004 5) := by decide
theorem test_result_bsiXfer : (Instr.bsiXfer 0 0xA150F069#32 0x1004 5).result mem9 = 0xBD0BE338#32 := by decide +kernel

theorem test_accept_bsiAixm : ctx0 (exec (.bsiAixm 0 0x33005361#32 0x1004 5) (block [idleCtx] .ready 0#12 [] [])) =
    some (bsCtx (.bsiAixm 0 0x33005361#32 0x1004 5) 2#2 0x33005361#32 0x1004 5) := by decide
theorem test_result_bsiAixm : (Instr.bsiAixm 0 0x33005361#32 0x1004 5).result mem9 = 0x3010BF7F#32 := by decide +kernel

/-- The complement at entry: `ARG = 0` loads all ones (R120). -/
theorem test_accept_c32cUpdate : ctx0 (exec upd (block [idleCtx] .empty 0#12 [] [])) =
    some (cCtx .cGuard 0xFFFFFFFF#32 0x1000 9) := by decide
/-- The check value, and the second piece of the message continued from the first piece's result (V7, `k = 4`). -/
theorem test_result_c32cUpdate : upd.result mem9 = 0xE3069283#32 ∧
    (Instr.c32cUpdate 0 0xF63AF4EE#32 0x1004 5).result mem9 = 0xE3069283#32 := by decide +kernel

/-! ### The micro-operations -/

/-- V12: the corner cases of `BITSTEP`. -/
theorem test_bitStep_corners :
    bitStep 0x00000001#32 0x000000AF#32 = 0x00000002#32 ∧ bitStep 0xC0000000#32 0x814141AB#32 = 0x014141AB#32 ∧
    bitStep 0x40000000#32 0x814141AB#32 = 0x80000000#32 := by decide

/-- V13: `ABSORB`. -/
theorem test_absorb_values :
    absorb 0xFFFFFFFF#32 0xFF#8 0x04C11DB7#32 = 0xFFFFFF00#32 ∧ absorb 0#32 0x01#8 0x814141AB#32 = 0x814141AB#32 ∧
    absorb 0x12345678#32 0x9A#8 0x000000AF#32 = 0x34562AF8#32 ∧ absorb 0xFFFFFFFF#32 0x31#8 0x04C11DB7#32 = 0x9EFBCF93#32 := by decide

/-- One `ABSORB` step on the machine: the first entry of V1's trace. -/
theorem test_absorbStep :
    ctx0 (step (block [bsCtx (.bsMpeg2 0 0x1000 9) 0#2 0xFFFFFFFF#32 0x1000 9] .empty 0#12 [] [.turn 0])) =
      some (bsCtx (.bsMpeg2 0 0x1000 9) 0#2 0x9EFBCF93#32 0x1001 8) := by decide

/-- One fold step at an aligned start: V4, alignment 0. The step's cursor is checked on the machine, its value by the fold function. -/
theorem test_foldStep :
    (ctx0 (step (block [cCtx .cFold 0xFFFFFFFF#32 0x1000 9] .ready 2048#12 [] [.turn 0]))).map (fun x => (x.ptr, x.rem, x.seq)) =
      some (0x1008, 1, .cFold) := by decide
theorem test_cfold : mem9.read8? 0x1000 = some 0x3837363534333231#64 ∧ cfold tabAt 0xFFFFFFFF#32 0x3837363534333231#64 = 0x9F787F65#32 := by
  decide +kernel

/-- One tail byte step, the last of V4's trace. -/
theorem test_tailStep :
    ctx0 (step (block [cCtx .cTail 0x9F787F65#32 0x1008 1] .ready 2048#12 [] [.turn 0])) =
      some (cCtx .cTail 0x1CF96D7C#32 0x1009 0) := by decide +kernel

/-- The finish step complements: V4. -/
theorem test_finishCrc32c :
    answers (step (block [cCtx .cTail 0x1CF96D7C#32 0x1009 0] .ready 2048#12 [] [.turn 0])) =
      some [{ ctx := 0, resp := .ok 0xE3069283#32 }] := by decide

/-- Entries of the table of 41_crc32c_table.md, one in each row. -/
theorem test_table_rows :
    tab 0 0x31#8 = 0xC288CAB2#32 ∧ tab 1 0x31#8 = 0x53EC8AF4#32 ∧ tab 2 0x7F#8 = 0x1A225CEB#32 ∧ tab 3 0x80#8 = 0x52A0C93F#32 ∧
    tab 4 0xFE#8 = 0x9879010F#32 ∧ tab 5 0x02#8 = 0xDB8CA0C3#32 ∧ tab 6 0x31#8 = 0xC90355D3#32 ∧ tab 7 0x7F#8 = 0x2B14A6C1#32 := by
  decide +kernel

/-- The encodings of `TBL_STATE` (R16) and of `STATUS` (R58). -/
theorem test_codes :
    TblState.code .empty = 0#2 ∧ TblState.code .building = 1#2 ∧ TblState.code .ready = 2#2 ∧
    (Response.ok 5#32).status = 0#2 ∧ (Response.err .illegalCommand).status = 1#2 ∧ (Response.err .invalidArgument).status = 2#2 := by
  decide

/-! ### The two faults -/

/-- A command with both defects reports `IllegalCommand` (R156). -/
theorem test_illegalCommand_first :
    answers (step (block [idleCtx] .empty 0#12 [{ ctx := 0, op := 0x03#8, arg := 0#32, addr := 0, len := 1 }] [.turn 0])) =
      some [{ ctx := 0, resp := .err .illegalCommand }] := by decide

/-- One byte past the valid range is refused; `LEN = 0` at an invalid address is not (R155, R164). -/
theorem test_invalidArgument :
    answers (exec (.bsMpeg2 0 0x1000 10) (block [idleCtx] .empty 0#12 [] [])) = some [{ ctx := 0, resp := .err .invalidArgument }] ∧
    answers (exec (.bsMpeg2 0 0xFFFFFFFFFFFFFFFF 0) (block [idleCtx] .empty 0#12 [] [])) = some [] := by decide

/-- `ADDR + LEN = 2^AW` is allowed, one more is not (R155). -/
theorem test_top_of_memory :
    argumentsOk 64 memTop 0xFFFFFFFFFFFFFFFF 1 = true ∧ argumentsOk 64 memTop 0xFFFFFFFFFFFFFFFF 2 = false := by decide

/-- `AW` is an argument: at `AW = 4` the last byte is at 15, `ADDR + LEN = 16` is allowed and 17 is not, and the cursor of a message that ends
at the top is 0 after its last byte (R3, R14, R155). Hand calculation from the rules. -/
theorem test_narrow_addresses :
    let m : Memory := { cells := [(15, 0x31#8)] }
    argumentsOk 4 m 15 1 = true ∧ argumentsOk 4 m 15 2 = false ∧
    (ctx0 (step { block [bsCtx (.bsXfer 0 15 1) 1#2 0#32 15 1] .empty 0#12 [] [.turn 0] with aw := 4, mem := m })).map
      (fun x => (x.ptr, x.rem, x.seq)) = some (0, 0, .bsRun) := by decide

/-! ### The text form of a command (R60) -/

theorem test_assemble_update :
    Asm.assemble 64 [("x".toList, 0xF63AF4EE#32)] "@1 C32C.Update x, [0x1004], 5 -> y ; second piece".toList =
      some { command := { ctx := 1, op := 0x20#8, arg := 0xF63AF4EE#32, addr := 0x1004, len := 5 }, bind := some "y".toList } := by
  decide +kernel

theorem test_assemble_forms :
    (Asm.assemble 64 [] "bs.aixm [0x1000], 9".toList).map (·.command) = some { ctx := 0, op := 0x02#8, arg := 0#32, addr := 0x1000, len := 9 } ∧
    (Asm.assemble 64 [] "c32c [4096], 0b1001".toList).map (·.command) = some { ctx := 0, op := 0x20#8, arg := 0#32, addr := 0x1000, len := 9 } ∧
    (Asm.assemble 64 [] ".op 0x2F 1, [0], 0".toList).map (·.command) = some { ctx := 0, op := 0x2F#8, arg := 1#32, addr := 0, len := 0 } ∧
    Asm.assemble 64 [] "bsi.mpeg2 [0x1000], 9".toList = none ∧ Asm.assemble 4 [] "bs.aixm [16], 0".toList = none := by decide +kernel

/-! ### Witnesses: encoding and the accept step -/

/-- A command at the port. -/
def port9 (op : BitVec 8) : Command := { ctx := 0, op := op, arg := 0#32, addr := 0x1000, len := 9 }

theorem fits9 : Fits 64 0x1000 9 := ⟨by decide, by decide⟩

theorem good9 : ¬ BadRange 64 mem9 0x1000 9 := (argumentsOk_iff _ _ _ _).1 (by decide)

/-- At `AW = 4`, with both operands at their largest value. -/
theorem witness_EncodeThenDecodeIsIdentity : (Instr.bsiXfer 0 1#32 15 15).ctx = 0 ∧ Fits 4 15 15 := ⟨rfl, by decide, by decide⟩

theorem witness_DecodeDropsOnlyArgOfClassBs :
    decode (port9 0x00#8) = .ok (.bsMpeg2 0 0x1000 9) ∧ opClass (port9 0x00#8).op = 0#4 ∧
    decode (port9 0x20#8) = .ok upd ∧ opClass (port9 0x20#8).op ≠ 0#4 := ⟨rfl, rfl, rfl, by decide⟩

theorem witness_StepRunsTheDecodedCommand :
    let s := block [idleCtx] .empty 0#12 [port9 0x20#8] [.turn 0]
    s.events = .turn 0 :: [] ∧ s.ctx? 0 = some idleCtx ∧ idleCtx.seq = .idle ∧ s.nextCommand 0 = some (port9 0x20#8) ∧
      decode (port9 0x20#8) = .ok upd := ⟨rfl, rfl, rfl, rfl, rfl⟩

theorem witness_FetchWordIsRunByTheNextStep :
    (block [idleCtx] .empty 0#12 [] []).ctx? 0 = some idleCtx ∧ decodeWord (block [idleCtx] .empty 0#12 [] []).aw 8 0x20 = some (.c32cUpdate 0 0#32 0 0) :=
  ⟨rfl, by decide⟩

theorem witness_IllegalCommandIsRefusedAndChangesNothing :
    let s := block [idleCtx] .empty 0#12 [port9 0x21#8] [.turn 0]
    s.events = .turn 0 :: [] ∧ s.ctx? 0 = some idleCtx ∧ idleCtx.seq = .idle ∧ s.nextCommand 0 = some (port9 0x21#8) ∧
      (∀ i : Instr, (encode i).op ≠ (port9 0x21#8).op) :=
  ⟨rfl, rfl, rfl, rfl, fun i => by cases i <;> simp [encode, port9]⟩

/-- The clauses at their boundaries: one past the address space, one past the valid range, the empty message, exactly the valid range. -/
theorem witness_BadOperandsAreRefusedAndChangeNothing :
    let s := block [idleCtx] .empty 0#12 [] []
    s.ctx? 0 = some idleCtx ∧ idleCtx.seq = .idle ∧
    (2 ≠ 0 ∧ 2 ^ s.aw < 0xFFFFFFFFFFFFFFFF + 2) ∧
    (10 ≠ 0 ∧ ∃ a, 0x1000 ≤ a ∧ a < 0x1000 + 10 ∧ s.mem.valid a = false) ∧
    ¬ BadRange 64 s.mem 0xFFFFFFFFFFFFFFFF 0 ∧ ¬ BadRange 64 s.mem 0x1000 9 ∧ ¬ BadRange 64 memTop 0xFFFFFFFFFFFFFFFF 1 :=
  ⟨rfl, rfl, by decide, ⟨by decide, 0x1009, by decide, by decide, by decide⟩, (argumentsOk_iff _ _ _ _).1 (by decide), good9,
    (argumentsOk_iff _ _ _ _).1 (by decide)⟩

/-- Hypotheses of the three statements about what an accept step loads. -/
theorem witness_AcceptLoads :
    let s := block [idleCtx] .empty 0#12 [] []
    s.ctx? 0 = some idleCtx ∧ idleCtx.seq = .idle ∧ ¬ BadRange 64 s.mem 0x1000 9 := ⟨rfl, rfl, good9⟩

theorem witness_BusyContextLeavesTheCommandWaiting :
    let s := block [cCtx .cGuard 0xFFFFFFFF#32 0x1000 9] .empty 0#12 [port9 0x20#8] []
    s.ctx? upd.ctx = some (cCtx .cGuard 0xFFFFFFFF#32 0x1000 9) ∧ (cCtx .cGuard 0xFFFFFFFF#32 0x1000 9).seq ≠ .idle :=
  ⟨rfl, by decide⟩

theorem witness_AcceptFrame :
    ∃ t, exec upd (block [idleCtx, idleCtx] .empty 0#12 [port9 0x20#8, { port9 0x20#8 with ctx := 1 }] []) = .next t ∧
      (∃ y, t.ctx? upd.ctx = some y) ∧ upd.bitSerial? = none ∧ (Instr.bsXfer 0 0 0).bitSerial?.isSome = true :=
  ⟨_, rfl, ⟨_, rfl⟩, rfl, rfl⟩

/-! ### Witnesses: the bit-serial unit -/

/-- One clause for each variant; the last byte of the message, and a cursor with more to come. -/
theorem witness_AbsorbStepConsumesOneByte :
    let x v := bsCtx (.bsMpeg2 0 0x1000 9) v 0xFFFFFFFF#32 0x1000 9
    let y := bsCtx (.bsMpeg2 0 0x1000 9) 0#2 0x49E3C2FB#32 0x1008 1
    (block [x 1#2] .empty 0#12 [] [.turn 0]).ctx? 0 = some (x 1#2) ∧ (x 1#2).seq = .bsRun ∧
    0 < (x 1#2).rem ∧ mem9.read? (x 1#2).ptr = some 0x31#8 ∧ (x 0#2).var = 0#2 ∧ (x 1#2).var = 1#2 ∧ (x 2#2).var = 2#2 ∧
    0 < y.rem ∧ mem9.read? y.ptr = some 0x39#8 := ⟨rfl, rfl, by decide, by decide, rfl, rfl, rfl, by decide, by decide⟩

theorem witness_BitSerialFinishReturnsTheRegister :
    let x := bsCtx (.bsMpeg2 0 0x1000 9) 0#2 0x0376E6E7#32 0x1009 0
    let s := block [x] .empty 0#12 [] [.turn 0]
    s.events = .turn 0 :: [] ∧ s.ctx? 0 = some x ∧ x.seq = .bsRun ∧ x.rem = 0 := ⟨rfl, rfl, rfl, rfl⟩

theorem witness_BitSerialCommandAnswersItsCrc :
    CanTake (block [idleCtx] .empty 0#12 [port9 0x01#8] []) 0 idleCtx (.bsXfer 0 0x1000 9) ∧
      (Instr.bsXfer 0 0x1000 9).bitSerial? = some (1#2, 0x00000000#32, 0x000000AF#32) :=
  ⟨⟨rfl, rfl, ⟨_, rfl, rfl⟩, fits9, good9⟩, rfl⟩

theorem witness_FixedAndExplicitFormsAgree :
    let s := block [idleCtx] .empty 0#12 [] []
    s.ctx? 0 = some idleCtx ∧ idleCtx.seq = .idle ∧ s.nextCommand 0 = none ∧ ¬ BadRange 64 s.mem 0x1000 9 :=
  ⟨rfl, rfl, rfl, good9⟩

/-- `LEN = 0` at an address that is not `Valid`. -/
theorem witness_BitSerialEmptyInputReturnsTheInitialValue :
    let k : Command := { ctx := 0, op := 0x10#8, arg := 0x12345678#32, addr := 0xFFFFFFFFFFFFFFFF, len := 0 }
    let i : Instr := .bsiMpeg2 0 0x12345678#32 0xFFFFFFFFFFFFFFFF 0
    let s := block [idleCtx] .empty 0#12 [k] []
    s.ctx? 0 = some idleCtx ∧ idleCtx.seq = .idle ∧ s.nextCommand 0 = some k ∧ decode k = .ok i ∧
      i.bitSerial? = some (0#2, 0x12345678#32, 0x04C11DB7#32) ∧ i.len = 0 := ⟨rfl, rfl, rfl, rfl, rfl, rfl⟩

/-- The message of the check values lies in `mem9`; the same hypothesis serves `Crc32cCheckValue`. -/
theorem witness_BitSerialCheckValues : mem9.message 0x1000 9 = msg9 := by decide

/-! ### Witnesses: the table -/

theorem witness_TableRowsHaveDistinctEntries : tabAt 3#3 0x31#8 = tabAt 3#3 0x31#8 := rfl

/-- The three clauses of the guard step. -/
theorem witness_GuardStepTestsAndSets :
    let x := cCtx .cGuard 0xFFFFFFFF#32 0x1000 9
    let s ts := block [x] ts 0#12 [] [.turn 0]
    (s .empty).events = .turn 0 :: [] ∧ (s .empty).ctx? 0 = some x ∧ x.seq = .cGuard ∧
      (s .empty).tblState = .empty ∧ (s .ready).tblState = .ready ∧ (s .building).tblState = .building := ⟨rfl, rfl, rfl, rfl, rfl, rfl⟩

/-- Row 0 at its last entry, row 1 at its first, row 7 at its last. -/
theorem witness_EntryWriteStoresOneEntry :
    let x := cCtx .cBuild 0xFFFFFFFF#32 0x1000 9
    let s n := block [x] .building n [] [.turn 0]
    (s 255#12).events = .turn 0 :: [] ∧ (s 255#12).ctx? 0 = some x ∧ x.seq = .cBuild ∧
      ((255#12).extractLsb' 8 3 = 0#3 ∧ (255#12).extractLsb' 0 8 = 255#8 ∧ (s 255#12).tblIdx.toNat < 2048) ∧
      ((256#12).extractLsb' 8 3 = 1#3 ∧ (256#12).extractLsb' 0 8 = 0#8 ∧ (s 256#12).tblIdx.toNat < 2048) ∧
      ((2047#12).extractLsb' 8 3 = 7#3 ∧ (2047#12).extractLsb' 0 8 = 255#8 ∧ (s 2047#12).tblIdx.toNat < 2048) :=
  ⟨rfl, rfl, rfl, by decide, by decide, by decide⟩

/-- The builder, and a context held at the guard. -/
theorem witness_PublishMakesTheTableReady :
    let x := cCtx .cBuild 0xFFFFFFFF#32 0x1000 9
    let y := cCtx .cGuard 0xFFFFFFFF#32 0x1000 9
    let s := block [x, y] .building 2048#12 [] [.turn 0]
    s.events = .turn 0 :: [] ∧ s.ctx? 0 = some x ∧ x.seq = .cBuild ∧ s.tblIdx.toNat = 2048 ∧
      1 ≠ 0 ∧ s.ctx? 1 = some y ∧ y.seq = .cGuard := ⟨rfl, rfl, rfl, rfl, by decide, rfl, rfl⟩

theorem witness_BuilderFillsTheWholeTable :
    let x := cCtx .cGuard 0xFFFFFFFF#32 0x1000 9
    let s := block [x] .empty 0#12 [] []
    s.ctx? 0 = some x ∧ x.seq = .cGuard ∧ s.tblState = .empty := ⟨rfl, rfl, rfl⟩

/-! ### States with the invariant -/

/-- What a context of the witnesses needs for the invariant, for a command of the table unit. -/
theorem cCtx_inv {q : Seq} {c : Word} {ptr rem : Nat} (hq : q = .cGuard ∨ q = .cBuild ∨ q = .cHead ∨ q = .cFold ∨ q = .cTail)
    (hl : rem ≤ 9) (hp : ptr = advance 64 0x1000 (9 - rem))
    (hc : c = (mem9.message 0x1000 (9 - rem)).foldl (cbyte tabAt) 0xFFFFFFFF#32)
    (hb : q = .cGuard ∨ q = .cBuild → rem = 9) (hf : q = .cFold → rem = 0 ∨ ptr % 8 = 0)
    (ht : q = .cTail → rem ≤ 7) : ContextInv 64 mem9 0 (cCtx q c ptr rem) := by
  refine ⟨?_, rfl, fits9, good9, hl, hp, ?_, ?_, hb, hf, ht⟩
  · rcases hq with rfl | rfl | rfl | rfl | rfl <;> (intro h; cases h)
  · intro tag init p h
    cases h
  · intro ctx arg addr len h
    cases h
    exact ⟨hq, hc⟩

/-- A bit-serial command after its first byte (V1). -/
def midCtx : Context := bsCtx (.bsMpeg2 0 0x1000 9) 0#2 0x9EFBCF93#32 0x1001 8

/-- The same command with every byte consumed. -/
def doneCtx : Context := bsCtx (.bsMpeg2 0 0x1000 9) 0#2 0x0376E6E7#32 0x1009 0

theorem midCtx_inv : ContextInv 64 mem9 0 midCtx := by
  refine ⟨by decide, rfl, fits9, good9, by decide, rfl, ?_, ?_, by decide, by decide, by decide⟩
  · intro tag init p h
    cases h
    exact ⟨rfl, rfl, by decide +kernel⟩
  · intro ctx arg addr len h
    cases h

theorem doneCtx_inv : ContextInv 64 mem9 0 doneCtx := by
  refine ⟨by decide, rfl, fits9, good9, by decide, rfl, ?_, ?_, by decide, by decide, by decide⟩
  · intro tag init p h
    cases h
    exact ⟨rfl, rfl, by decide +kernel⟩
  · intro ctx arg addr len h
    cases h

theorem idleCtx_inv (aw : Nat) (m : Memory) (n : Nat) : ContextInv aw m n idleCtx := rfl

/-- A block of one context over the finished table has the invariant when its context has, and is the builder exactly while `BUILDING`. -/
theorem block_inv {x : Context} {ts : TblState} {idx : BitVec 12} {port : List Command} {es : List Event} (hx : ContextInv 64 mem9 0 x)
    (hw : x.ptr < 2 ^ 64 ∧ x.rem < 2 ^ 64) (hp : ∀ k ∈ port, Fits 64 k.addr k.len)
    (hb : x.seq = .cBuild ↔ ts = .building) (hi : idx.toNat ≤ 2048)
    (hg : x.seq = .cHead ∨ x.seq = .cFold ∨ x.seq = .cTail → ts = .ready) : Inv (block [x] ts idx port es) := by
  have h0 : ∀ n y, (block [x] ts idx port es).ctx? n = some y → n = 0 ∧ y = x := by
    intro n y h
    cases n with
    | zero => exact ⟨rfl, (Option.some.inj h).symm⟩
    | succ n => cases h
  refine ⟨show 4 ≤ 64 by decide, show mem9.wf = true by decide, show mem9.within 64 = true by decide, ?_, hp, by simp [block], ?_, ?_, ?_, hi, fun _ i _ => Table.get_final _ _, fun _ k n => Table.get_final k n, ?_⟩
  · intro n y h
    obtain ⟨-, rfl⟩ := h0 n y h
    exact hw
  · intro n y h
    obtain ⟨rfl, rfl⟩ := h0 n y h
    exact hx
  · intro m n y z hy hz _ _
    rw [(h0 m y hy).1, (h0 n z hz).1]
  · constructor
    · rintro ⟨n, y, hy, hq⟩
      obtain ⟨_, rfl⟩ := h0 n y hy
      exact hb.1 hq
    · intro h
      exact ⟨0, x, rfl, hb.2 h⟩
  · intro n y hy hq
    obtain ⟨_, rfl⟩ := h0 n y hy
    exact hg hq

/-- No command waits. -/
theorem noCommands : ∀ k ∈ ([] : List Command), Fits 64 k.addr k.len := fun _ h => nomatch h

/-- One command waits, over `msg9`. -/
theorem oneCommand : ∀ k ∈ [port9 0x20#8], Fits 64 k.addr k.len := by
  intro k h
  cases List.mem_singleton.1 h
  exact fits9

/-- Every phase of a `C32C.UPDATE` occurs in a state with the invariant. -/
theorem witness_Inv_cGuard (ts : TblState) (h : ts ≠ .building) (idx : BitVec 12) (hi : idx.toNat ≤ 2048) (es : List Event) :
    Inv (block [cCtx .cGuard 0xFFFFFFFF#32 0x1000 9] ts idx [] es) :=
  block_inv (cCtx_inv (by decide) (by decide) rfl rfl (by decide) (by decide) (by decide)) (by decide) noCommands
    ⟨fun hq => (by cases hq), fun h' => absurd h' h⟩ hi (fun hq => by rcases hq with hq | hq | hq <;> cases hq)

theorem witness_Inv_cBuild (idx : BitVec 12) (hi : idx.toNat ≤ 2048) (es : List Event) :
    Inv (block [cCtx .cBuild 0xFFFFFFFF#32 0x1000 9] .building idx [] es) :=
  block_inv (cCtx_inv (by decide) (by decide) rfl rfl (by decide) (by decide) (by decide)) (by decide) noCommands ⟨fun _ => rfl, fun _ => rfl⟩ hi (by decide)

theorem witness_Inv_cFold (es : List Event) : Inv (block [cCtx .cFold 0xFFFFFFFF#32 0x1000 9] .ready 2048#12 [] es) :=
  block_inv (cCtx_inv (by decide) (by decide) rfl rfl (by decide) (by decide) (by decide)) (by decide) noCommands (by decide) (by decide) (by decide)

theorem witness_Inv_cTail (es : List Event) : Inv (block [cCtx .cTail 0x1CF96D7C#32 0x1009 0] .ready 2048#12 [] es) :=
  block_inv (cCtx_inv (by decide) (by decide) rfl (by decide +kernel) (by decide) (by decide) (by decide)) (by decide) noCommands (by decide) (by decide) (by decide)

theorem witness_Inv_bsRun (es : List Event) : Inv (block [midCtx] .empty 0#12 [] es) :=
  block_inv midCtx_inv (by decide) noCommands (by decide) (by decide) (by decide)

theorem witness_Inv_bsDone (es : List Event) : Inv (block [doneCtx] .empty 0#12 [] es) :=
  block_inv doneCtx_inv (by decide) noCommands (by decide) (by decide) (by decide)

theorem witness_Inv_idle (port : List Command) (hp : ∀ k ∈ port, Fits 64 k.addr k.len) (es : List Event) :
    Inv (block [idleCtx] .ready 2048#12 port es) :=
  block_inv (idleCtx_inv _ _ _) (by decide) hp (by decide) (by decide) (by decide)

/-! ### Witnesses that need the invariant -/

/-- With the table ready, a step that is not reset, and reset. -/
theorem witness_ReadyTableIsImmutable :
    (∃ t, Inv (block [idleCtx] .ready 2048#12 [port9 0x20#8] [.turn 0]) ∧ step (block [idleCtx] .ready 2048#12 [port9 0x20#8] [.turn 0]) = .next t) ∧
    (∃ t, Inv (block [idleCtx] .ready 2048#12 [] [.reset]) ∧ step (block [idleCtx] .ready 2048#12 [] [.reset]) = .next t) :=
  ⟨⟨_, witness_Inv_idle _ oneCommand _, rfl⟩, ⟨_, witness_Inv_idle _ noCommands _, rfl⟩⟩

/-- The guard won, the table published, and reset from `READY`: each changes `TBL_STATE`. -/
theorem witness_GuardOnlyMovesForward :
    (∃ t, Inv (block [cCtx .cGuard 0xFFFFFFFF#32 0x1000 9] .empty 0#12 [] [.turn 0]) ∧
      step (block [cCtx .cGuard 0xFFFFFFFF#32 0x1000 9] .empty 0#12 [] [.turn 0]) = .next t ∧ t.tblState = .building) ∧
    (∃ t, Inv (block [cCtx .cBuild 0xFFFFFFFF#32 0x1000 9] .building 2048#12 [] [.turn 0]) ∧
      step (block [cCtx .cBuild 0xFFFFFFFF#32 0x1000 9] .building 2048#12 [] [.turn 0]) = .next t ∧ t.tblState = .ready) ∧
    (∃ t, Inv (block [idleCtx] .ready 2048#12 [] [.reset]) ∧ step (block [idleCtx] .ready 2048#12 [] [.reset]) = .next t ∧ t.tblState = .empty) :=
  ⟨⟨_, witness_Inv_cGuard _ (by decide) _ (by decide) _, rfl, rfl⟩, ⟨_, witness_Inv_cBuild _ (by decide) _, rfl, rfl⟩,
    ⟨_, witness_Inv_idle _ noCommands _, rfl, rfl⟩⟩

/-- The builder one turn from its end, and with the whole build before it. -/
theorem witness_HoldEndsWhenTheBuilderHasHadItsTurns :
    let x := cCtx .cBuild 0xFFFFFFFF#32 0x1000 9
    let s n := block [x] .building n [] []
    Inv (s 2048#12) ∧ Inv (s 0#12) ∧ (s 2048#12).ctx? 0 = some x ∧ (s 0#12).ctx? 0 = some x ∧ x.seq = .cBuild ∧
      2049 - (s 2048#12).tblIdx.toNat ≤ [5, 0].count 0 ∧ 2049 - (s 0#12).tblIdx.toNat ≤ (List.replicate 2049 0).count 0 :=
  ⟨witness_Inv_cBuild _ (by decide) _, witness_Inv_cBuild _ (by decide) _, rfl, rfl, rfl, by decide,
    by rw [List.count_replicate_self]; exact Nat.le_refl _⟩

theorem witness_NoByteOutsideTheMessageMatters :
    let s := block [midCtx] .empty 0#12 [] []
    let m := mem9.place 0x2000 0xFF#8
    Inv s ∧ s.ctx? 0 = some midCtx ∧ midCtx.job = some (.bsMpeg2 0 0x1000 9) ∧ m ≠ s.mem ∧
      (∀ a, 0x1000 ≤ a → a < 0x1000 + 9 → m.read? a = s.mem.read? a) := by
  refine ⟨witness_Inv_bsRun _, rfl, rfl, by decide, ?_⟩
  intro a h1 h2
  have h1' : 4096 ≤ a := h1
  have h2' : a < 4105 := h2
  obtain rfl | rfl | rfl | rfl | rfl | rfl | rfl | rfl | rfl :
    a = 4096 ∨ a = 4097 ∨ a = 4098 ∨ a = 4099 ∨ a = 4100 ∨ a = 4101 ∨ a = 4102 ∨ a = 4103 ∨ a = 4104 := by omega
  all_goals decide

/-- A busy step, an accept step, a fold step and a build step, each from a state with the invariant. -/
theorem witness_EveryStepKeepsTheInvariant :
    (∃ t, Inv (block [midCtx] .empty 0#12 [] [.turn 0]) ∧ step (block [midCtx] .empty 0#12 [] [.turn 0]) = .next t) ∧
    (∃ t, Inv (block [idleCtx] .ready 2048#12 [port9 0x20#8] [.turn 0]) ∧
      step (block [idleCtx] .ready 2048#12 [port9 0x20#8] [.turn 0]) = .next t) ∧
    (∃ t, Inv (block [cCtx .cFold 0xFFFFFFFF#32 0x1000 9] .ready 2048#12 [] [.turn 0]) ∧
      step (block [cCtx .cFold 0xFFFFFFFF#32 0x1000 9] .ready 2048#12 [] [.turn 0]) = .next t) ∧
    (∃ t, Inv (block [cCtx .cBuild 0xFFFFFFFF#32 0x1000 9] .building 2047#12 [] [.turn 0]) ∧
      step (block [cCtx .cBuild 0xFFFFFFFF#32 0x1000 9] .building 2047#12 [] [.turn 0]) = .next t) :=
  ⟨⟨_, witness_Inv_bsRun _, rfl⟩, ⟨_, witness_Inv_idle _ oneCommand _, rfl⟩, ⟨_, witness_Inv_cFold _, rfl⟩, ⟨_, witness_Inv_cBuild _ (by decide) _, rfl⟩⟩

theorem witness_InvariantGivesRuleR25 : Inv (block [cCtx .cTail 0x1CF96D7C#32 0x1009 0] .ready 2048#12 [] []) := witness_Inv_cTail _

/-- A state that goes on, and one whose next event is a host write into the message of the command in progress. -/
theorem witness_NothingStopsTheMachine :
    Inv (block [midCtx] .empty 0#12 [] [.turn 0]) ∧
    Inv (block [midCtx] .empty 0#12 [] [.hostWrite 0x1008 0#8]) ∧
      step (block [midCtx] .empty 0#12 [] [.hostWrite 0x1008 0#8]) = .refused (.messageWritten 0x1008) :=
  ⟨witness_Inv_bsRun _, witness_Inv_bsRun _, by rfl⟩

/-- The two finish steps. -/
theorem witness_EveryAnswerIsItsCommandsResult :
    (∃ t, Inv (block [doneCtx] .empty 0#12 [] [.turn 0]) ∧ step (block [doneCtx] .empty 0#12 [] [.turn 0]) = .next t ∧
      t.outbox = (block [doneCtx] .empty 0#12 [] [.turn 0]).outbox ++ [{ ctx := 0, resp := .ok 0x0376E6E7#32 }]) ∧
    (∃ t, Inv (block [cCtx .cTail 0x1CF96D7C#32 0x1009 0] .ready 2048#12 [] [.turn 0]) ∧
      step (block [cCtx .cTail 0x1CF96D7C#32 0x1009 0] .ready 2048#12 [] [.turn 0]) = .next t ∧
      t.outbox = (block [cCtx .cTail 0x1CF96D7C#32 0x1009 0] .ready 2048#12 [] [.turn 0]).outbox ++
        [{ ctx := 0, resp := .ok 0xE3069283#32 }]) :=
  ⟨⟨_, witness_Inv_bsDone _, rfl, by rfl⟩, ⟨_, witness_Inv_cTail _, rfl, by decide⟩⟩

/-- Both faults. -/
theorem witness_ErrorsComeOnlyFromAcceptSteps :
    (∃ t, step (block [idleCtx] .empty 0#12 [port9 0xFF#8] [.turn 0]) = .next t ∧
      t.outbox = (block [idleCtx] .empty 0#12 [port9 0xFF#8] [.turn 0]).outbox ++ [{ ctx := 0, resp := .err .illegalCommand }]) ∧
    (∃ t, step (block [idleCtx] .empty 0#12 [{ port9 0x20#8 with len := 10 }] [.turn 0]) = .next t ∧
      t.outbox = (block [idleCtx] .empty 0#12 [{ port9 0x20#8 with len := 10 }] [.turn 0]).outbox ++
        [{ ctx := 0, resp := .err .invalidArgument }]) :=
  ⟨⟨_, rfl, rfl⟩, ⟨_, rfl, rfl⟩⟩

theorem witness_OneResponseForEachCommand :
    ∃ t, Inv (block [idleCtx] .ready 2048#12 [port9 0x20#8] []) ∧ turn 0 (block [idleCtx] .ready 2048#12 [port9 0x20#8] []) = .next t :=
  ⟨_, witness_Inv_idle _ oneCommand _, rfl⟩

theorem witness_ContextsArePrivate :
    1 ≠ 0 ∧ ∃ t, turn 0 (block [midCtx, idleCtx] .empty 0#12 [] []) = .next t := ⟨by decide, _, rfl⟩

/-- One state in each phase. -/
theorem witness_TurnFrame :
    (∃ t y, (block [idleCtx] .ready 2048#12 [port9 0x20#8] []).ctx? 0 = some idleCtx ∧ t.ctx? 0 = some y ∧
      turn 0 (block [idleCtx] .ready 2048#12 [port9 0x20#8] []) = .next t) ∧
    (∃ t y, (block [midCtx] .empty 0#12 [] []).ctx? 0 = some midCtx ∧ t.ctx? 0 = some y ∧ turn 0 (block [midCtx] .empty 0#12 [] []) = .next t) ∧
    (∃ t y, t.ctx? 0 = some y ∧ turn 0 (block [cCtx .cGuard 0#32 0 0] .empty 0#12 [] []) = .next t) ∧
    (∃ t y, t.ctx? 0 = some y ∧ turn 0 (block [cCtx .cBuild 0#32 0 0] .building 2047#12 [] []) = .next t) ∧
    (∃ t y, t.ctx? 0 = some y ∧ turn 0 (block [cCtx .cHead 0#32 0x1001 8] .ready 2048#12 [] []) = .next t) ∧
    (∃ t y, t.ctx? 0 = some y ∧ turn 0 (block [cCtx .cFold 0#32 0x1000 9] .ready 2048#12 [] []) = .next t) ∧
    (∃ t y, t.ctx? 0 = some y ∧ turn 0 (block [cCtx .cTail 0#32 0x1008 1] .ready 2048#12 [] []) = .next t) :=
  ⟨⟨_, _, rfl, rfl, rfl⟩, ⟨_, _, rfl, rfl, rfl⟩, ⟨_, _, rfl, rfl⟩, ⟨_, _, rfl, rfl⟩, ⟨_, _, rfl, rfl⟩, ⟨_, _, rfl, rfl⟩, ⟨_, _, rfl, rfl⟩⟩

/-- A busy turn that is not held, and an accept step that finds the table ready. -/
theorem witness_CommandsTerminate :
    (∃ t y, Inv (block [midCtx] .empty 0#12 [] []) ∧ midCtx.seq ≠ .idle ∧ ¬ (midCtx.seq = .cGuard ∧ TblState.empty = .building) ∧
      turn 0 (block [midCtx] .empty 0#12 [] []) = .next t ∧ t.ctx? 0 = some y) ∧
    (∃ t y, exec upd (block [idleCtx] .ready 2048#12 [port9 0x20#8] []) = .next t ∧ t.ctx? upd.ctx = some y ∧
      (∃ x, (block [idleCtx] .ready 2048#12 [port9 0x20#8] []).ctx? upd.ctx = some x ∧ x.seq = .idle) ∧ t.tblState = .ready) :=
  ⟨⟨_, _, witness_Inv_bsRun _, by decide, by decide, rfl, rfl⟩, ⟨_, _, rfl, rfl, ⟨_, rfl, rfl⟩, rfl⟩⟩

/-! ### Witnesses: the CRC-32C update and memory -/

theorem witness_FoldIsEightByteSteps : ∀ k n, tabAt k n = tab k.toNat n := fun _ _ => rfl

/-- The cut at both ends and inside. -/
theorem witness_Crc32cIsIncremental :
    0 ≤ msg9.length ∧ 9 ≤ msg9.length ∧ ¬ BadRange 64 mem9 0x1000 9 ∧ 4 ≤ 9 ∧ 9 ≤ 9 ∧
      0xF63AF4EE#32 = (Instr.c32cUpdate 0 0#32 0x1000 4).result mem9 := ⟨by decide, by decide, good9, by decide, by decide, by decide +kernel⟩

/-- The same message at two addresses of two alignments, in two contexts. -/
theorem witness_ResultDependsOnlyOnTheMessage :
    let i : Instr := .c32cUpdate 0 5#32 0x1000 2
    let j : Instr := .c32cUpdate 1 5#32 0x2003 2
    let n : Memory := { cells := [(0x2003, 0x31#8), (0x2004, 0x32#8)] }
    (encode i).op = (encode j).op ∧ (encode i).arg = (encode j).arg ∧ i.msg mem9 = j.msg n := ⟨rfl, rfl, by decide⟩

theorem witness_Crc32cEmptyInputReturnsTheArgument :
    let k : Command := { ctx := 0, op := 0x20#8, arg := 0x12345678#32, addr := 0xFFFFFFFFFFFFFFFF, len := 0 }
    let s := block [idleCtx] .ready 2048#12 [k] []
    s.ctx? 0 = some idleCtx ∧ idleCtx.seq = .idle ∧ s.nextCommand 0 = some k ∧
      decode k = .ok (.c32cUpdate 0 0x12345678#32 0xFFFFFFFFFFFFFFFF 0) ∧ s.tblState = .ready := ⟨rfl, rfl, rfl, rfl, rfl⟩

/-- The clauses at their boundaries: a head byte at the last unaligned address, the head left at an aligned address and at `REM = 0`, a fold with
exactly 8 bytes, the fold left with 7, a tail byte with 1, the end. -/
theorem witness_PhasesConsumeTheMessage :
    let head := cCtx .cHead 0#32 0x1007 2
    let headEnd := cCtx .cHead 0#32 0x1008 1
    let headShort := cCtx .cHead 0#32 0x1009 0
    let fold := cCtx .cFold 0#32 0x1000 8
    let foldEnd := cCtx .cFold 0#32 0x1000 7
    let tail := cCtx .cTail 0#32 0x1008 1
    let s x := block [x] .ready 2048#12 [] [.turn 0]
    ((s head).events = .turn 0 :: [] ∧ (s head).ctx? 0 = some head ∧ head.seq = .cHead ∧ head.ptr % 8 ≠ 0 ∧ 0 < head.rem ∧
      mem9.read? head.ptr = some 0x38#8) ∧
    (headEnd.seq = .cHead ∧ headEnd.ptr % 8 = 0) ∧ (headShort.seq = .cHead ∧ headShort.rem = 0) ∧
    (fold.seq = .cFold ∧ 8 ≤ fold.rem ∧ fold.ptr % 8 = 0 ∧
      ∀ i, i < 8 → mem9.read? (fold.ptr + i) = some ((0x3837363534333231#64).extractLsb' (8 * i) 8)) ∧
    (foldEnd.seq = .cFold ∧ foldEnd.rem < 8) ∧ (tail.seq = .cTail ∧ 0 < tail.rem ∧ mem9.read? tail.ptr = some 0x39#8) ∧
    (cCtx .cTail 0#32 0x1009 0).rem = 0 :=
  ⟨⟨rfl, rfl, rfl, by decide, by decide, by decide⟩, ⟨rfl, by decide⟩, ⟨rfl, rfl⟩, ⟨rfl, by decide, by decide, by decide⟩,
    ⟨rfl, by decide⟩, ⟨rfl, by decide, by decide⟩, rfl⟩

/-- The message of the check value, at an unaligned address. -/
theorem witness_Crc32cCheckValue :
    let m : Memory := { cells := [(3, 0x31#8), (4, 0x32#8), (5, 0x33#8), (6, 0x34#8), (7, 0x35#8), (8, 0x36#8), (9, 0x37#8), (10, 0x38#8), (11, 0x39#8)] }
    m.message 3 9 = msg9 := by decide

theorem witness_Crc32cCommandAnswersWhenReady :
    let s := block [idleCtx] .ready 2048#12 [port9 0x20#8] []
    CanTake s 0 idleCtx upd ∧ s.tblState = .ready ∧ (∀ k n, s.table.get k n = tab k.toNat n) :=
  ⟨⟨rfl, rfl, ⟨_, rfl, rfl⟩, fits9, good9⟩, rfl, fun k n => Table.get_final k n⟩

theorem witness_Crc32cCommandBuildsThenAnswers :
    let s := block [idleCtx] .empty 0#12 [port9 0x20#8] []
    CanTake s 0 idleCtx upd ∧ s.tblState = .empty := ⟨⟨rfl, rfl, ⟨_, rfl, rfl⟩, fits9, good9⟩, rfl⟩

theorem witness_EightByteReadIsLittleEndian :
    mem9.read8? 0x1000 = some 0x3837363534333231#64 ∧ (∀ i, i < 8 → mem9.valid (0x1000 + i) = true) := by decide

/-- A turn, a host write outside every message to a `Valid` byte, and one into a message. -/
theorem witness_BlockNeverWritesMemory :
    (∃ t, step (block [midCtx] .empty 0#12 [] [.turn 0]) = .next t) ∧
    (block [idleCtx] .empty 0#12 [] [.hostWrite 0x1000 0#8]).inFlight 0x1000 = false ∧ mem9.valid 0x1000 = true ∧
    (block [midCtx] .empty 0#12 [] [.hostWrite 0x1008 0#8]).inFlight 0x1008 = true := ⟨⟨_, rfl⟩, by decide, by decide, by decide⟩

theorem witness_ResetLeavesTheBlockIdle :
    (State.powerOn { aw := 4, nctx := 2, mem := mem9 }).ctx? 1 = some (Context.powerUp 4 0 1) := rfl

/-- Legal parameters: the narrowest addresses with one byte at the top, and `mem9` at the default width. -/
theorem witness_InvariantHoldsAtReset :
    Platform.Legal { aw := 4, nctx := 1, mem := { cells := [(15, 0x31#8)] } } ∧ Platform.Legal { aw := 64, nctx := 2, mem := mem9 } :=
  ⟨⟨by decide, by decide, by decide, by decide⟩, ⟨by decide, by decide, by decide, by decide⟩⟩

/-- A turn, a command presented, a host write and a reset. -/
theorem witness_NoStepChangesTheParameters :
    (∃ t, step (block [midCtx] .empty 0#12 [] [.turn 0]) = .next t) ∧
    (∃ t, step (block [midCtx] .empty 0#12 [] [.present (port9 0x20#8)]) = .next t) ∧
    (∃ t, step (block [idleCtx] .empty 0#12 [] [.hostWrite 0x1000 0#8]) = .next t) ∧
    (∃ t, step (block [midCtx] .empty 0#12 [] [.reset]) = .next t) := ⟨⟨_, rfl⟩, ⟨_, rfl⟩, ⟨_, rfl⟩, ⟨_, rfl⟩⟩

/-- Operands at the largest value the port can carry, and one that does not fit. -/
theorem witness_PresentedCommandWaitsAtThePort :
    (block [idleCtx] .empty 0#12 [] [.present (port9 0x20#8)]).events = .present (port9 0x20#8) :: [] ∧
    Fits 64 (2 ^ 64 - 1) (2 ^ 64 - 1) ∧ ¬ Fits 64 (2 ^ 64) 0 := ⟨rfl, ⟨by decide, by decide⟩, fun h => absurd h.addr (by decide)⟩

theorem witness_ResetAbandonsEveryTransaction :
    let s := block [midCtx, cCtx .cBuild 0#32 0 0] .building 5#12 [] [.reset]
    s.events = .reset :: [] ∧ ∃ t x, step s = .next t ∧ t.ctx? 1 = some x := ⟨rfl, _, _, rfl, rfl⟩

end Sys2Proof.Tests
end

section
/-! Proofs of the statements about the scope of the model: the parameters of R3, the memory the block never writes, power-on, and the
invariant across every step. -/

namespace Sys2Proof.Machine

/-! ### The two CRC folds -/

/-- The bit-serial fold over a message in two pieces. -/
theorem bscrc_append (r p : Word) (as bs : List Byte) : bscrc r p (as ++ bs) = bscrc (bscrc r p as) p bs :=
  List.foldl_append

/-- Widening the register to the fold word's 64 bits moves none of its bytes. -/
theorem extractByte_setWidth (c : Word) (n : Nat) (hn : n ≤ 56) : (c.setWidth 64 : DWord).extractLsb' n 8 = c.extractLsb' n 8 := by
  apply BitVec.eq_of_getLsbD_eq
  intro i hi
  simp [hi, show n + i < 64 by omega]

/-- The register has no byte above its fourth. -/
theorem extractByte_high (c : Word) (n : Nat) (hn : 32 ≤ n) : c.extractLsb' n 8 = 0#8 := by
  apply BitVec.eq_of_getLsbD_eq
  intro i hi
  simp [BitVec.getLsbD_extractLsb', BitVec.getLsbD_of_ge c (n + i) (by omega)]

/-- One fold step on the finished table is eight byte steps, lowest byte first (R128): both are exclusive ORs of zero steps of single bytes. -/
theorem cfold_tabAt (c : Word) (w : DWord) :
    cfold tabAt c w = [w.extractLsb' 0 8, w.extractLsb' 8 8, w.extractLsb' 16 8, w.extractLsb' 24 8, w.extractLsb' 32 8,
      w.extractLsb' 40 8, w.extractLsb' 48 8, w.extractLsb' 56 8].foldl (cbyte tabAt) c := by
  have hfold : cfold tabAt c w =
      tab 7 (c.extractLsb' 0 8 ^^^ w.extractLsb' 0 8) ^^^ tab 6 (c.extractLsb' 8 8 ^^^ w.extractLsb' 8 8)
        ^^^ tab 5 (c.extractLsb' 16 8 ^^^ w.extractLsb' 16 8) ^^^ tab 4 (c.extractLsb' 24 8 ^^^ w.extractLsb' 24 8)
        ^^^ tab 3 (w.extractLsb' 32 8) ^^^ tab 2 (w.extractLsb' 40 8) ^^^ tab 1 (w.extractLsb' 48 8) ^^^ tab 0 (w.extractLsb' 56 8) := by
    simp [cfold, BitVec.extractLsb'_xor, extractByte_setWidth, extractByte_high, tabAt]
  have hc := word_eq_bytes c
  rw [hfold]
  generalize c.extractLsb' 0 8 = c0, c.extractLsb' 8 8 = c1, c.extractLsb' 16 8 = c2, c.extractLsb' 24 8 = c3 at hc ⊢
  subst hc
  simp only [List.foldl_cons, List.foldl_nil, cbyte_tabAt, tab_succ, tab_zero_eq, BitVec.setWidth_xor, zeroStep_xor,
    zeroStep_up1, zeroStep_up2, zeroStep_up3]
  ac_rfl

/-! ### Messages -/

/-- The message of one readable byte. -/
theorem Memory.message_one {m : Memory} {a : Nat} {b : Byte} (h : m.read? a = some b) : m.message a 1 = [b] := by
  simp [Memory.message, h]

/-- The message of eight bytes read as one word is the word's bytes, lowest first. -/
theorem Memory.message_eight {m : Memory} {a : Nat} {w : DWord} (h : m.read8? a = some w) :
    m.message a 8 = [w.extractLsb' 0 8, w.extractLsb' 8 8, w.extractLsb' 16 8, w.extractLsb' 24 8, w.extractLsb' 32 8,
      w.extractLsb' 40 8, w.extractLsb' 48 8, w.extractLsb' 56 8] := by
  obtain ⟨b0, b1, b2, b3, b4, b5, b6, b7, hmsg, rfl⟩ := Memory.read8?_eq_some h
  obtain ⟨h0, h1, h2, h3, h4, h5, h6, h7⟩ := le64_bytes b0 b1 b2 b3 b4 b5 b6 b7
  rw [hmsg, h0, h1, h2, h3, h4, h5, h6, h7]

/-- A byte in no message of an unanswered command lies outside the message of every command in progress. -/
theorem State.outside_of_not_inFlight {s : State} {a : Nat} (hf : s.inFlight a = false) {n : Nat} {x : Context} (hx : s.ctx? n = some x)
    {i : Instr} (hj : x.job = some i) : ¬ (i.addr ≤ a ∧ a < i.addr + i.len) := by
  intro hin
  have hall := (Bool.or_eq_false_iff.1 hf).2
  rw [List.any_eq_false] at hall
  have := hall x (List.mem_of_getElem? hx)
  simp [hj, inRange, hin] at this

/-! ### The parameters and the memory across a step -/

/-- A turn changes neither `AW` nor the number of contexts, and writes no memory. -/
theorem TurnTo.frame {s t : State} {c : Nat} (h : TurnTo c s t) :
    t.aw = s.aw ∧ t.ctxs.length = s.ctxs.length ∧ t.mem = s.mem := by
  cases h with
  | absent | noCommand | held | overrun => exact ⟨rfl, rfl, rfl⟩
  | _ => simp

/-- A step changes neither `AW` nor the number of contexts, and what it writes of memory is a host write. -/
theorem step_frame {s t : State} (h : step s = .next t) :
    t.aw = s.aw ∧ t.ctxs.length = s.ctxs.length ∧
      (t.mem = s.mem ∨ ∃ a b es, s.events = .hostWrite a b :: es ∧ t.mem = s.mem.write a b) := by
  obtain ⟨es, n, u, rfl, ⟨c, ht, -⟩ | ⟨k, -, rfl⟩ | ⟨a, b, he, -, rfl⟩ | ⟨-, rfl⟩⟩ := step_cases h
  · obtain ⟨haw, hlen, hmem⟩ := ht.frame
    exact ⟨haw, hlen, .inl hmem⟩
  · exact ⟨rfl, rfl, .inl rfl⟩
  · exact ⟨rfl, rfl, .inr ⟨a, b, es, he, rfl⟩⟩
  · exact ⟨rfl, by simp, .inl rfl⟩

/-- The step of a host write. -/
theorem step_hostWrite {s : State} {a : Nat} {b : Byte} {es : List Event} (h : s.events = .hostWrite a b :: es) :
    step s = if s.inFlight a then .refused (.messageWritten a) else .next { s with events := es, mem := s.mem.write a b } :=
  step_cons h

end Sys2Proof.Machine

namespace Sys2Proof

open Machine

/-! ### `JobInv` across a step -/

/-- A phase change inside the table unit keeps what holds of the command in progress, where the new phase's own conditions hold. -/
theorem JobInv.setSeq {aw : Nat} {m : Memory} {n : Nat} {i : Instr} {x : Context} (h : JobInv aw m n i x) (hx : x.seq ≠ .bsRun) {q : Seq}
    (hq : q = .cBuild ∨ q = .cHead ∨ q = .cFold ∨ q = .cTail) (hbuild : q = .cBuild → x.rem = i.len)
    (hfold : q = .cFold → x.rem = 0 ∨ x.ptr % 8 = 0) (htail : q = .cTail → x.rem ≤ 7) : JobInv aw m n i { x with seq := q } where
  routed := h.routed
  fits := h.fits
  operands := h.operands
  left := h.left
  cursor := h.cursor
  bitSerial tag init p hi := absurd (h.bitSerial tag init p hi).1 hx
  tableDriven ctx arg addr len hi := ⟨.inr hq, (h.tableDriven ctx arg addr len hi).2⟩
  beforeHead hg := hbuild (hg.resolve_left (by rintro (rfl : q = .cGuard); simp at hq))
  foldAligned := hfold
  tailShort := htail

/-- A step that consumes `k` bytes keeps what holds of the command in progress, where it brings the unit's register forward by the CRC of
those bytes. -/
theorem JobInv.consume {aw : Nat} {m : Memory} {n : Nat} {i : Instr} {x : Context} (haw : 4 ≤ aw) (h : JobInv aw m n i x) {k : Nat}
    (hk : 0 < k) (hkr : k ≤ x.rem) (hg : x.seq ≠ .cGuard) (hb : x.seq ≠ .cBuild) (hf : x.seq = .cFold → k = 8) {r c : Word}
    (hr : ∀ tag init p, i.bitSerial? = some (tag, init, p) → r = bscrc x.r p (m.message x.ptr k))
    (hc : x.seq ≠ .bsRun → c = (m.message x.ptr k).foldl (cbyte tabAt) x.c) :
    JobInv aw m n i { x with r := r, c := c, ptr := advance aw x.ptr k, rem := x.rem - k } where
  routed := h.routed
  fits := h.fits
  operands := h.operands
  left := (Nat.sub_le _ _).trans h.left
  cursor := cursor_step h.cursor h.left hkr
  bitSerial tag init p hi := by
    obtain ⟨hseq, hvar, hcrc⟩ := h.bitSerial tag init p hi
    refine ⟨hseq, hvar, ?_⟩
    rw [h.message_consumed hkr rfl hk, bscrc_append, ← hcrc]
    exact hr tag init p hi
  tableDriven ctx arg addr len hi := by
    obtain ⟨hseq, hcrc⟩ := h.tableDriven ctx arg addr len hi
    have hne : x.seq ≠ .bsRun := fun hbs => by simp [hbs] at hseq
    have hmsg := h.message_consumed hkr (y := { x with rem := x.rem - k }) rfl hk
    subst hi
    refine ⟨hseq, ?_⟩
    calc
      c = (m.message x.ptr k).foldl (cbyte tabAt) x.c := hc hne
      _ = (m.message addr (consumed _ x) ++ m.message x.ptr k).foldl (cbyte tabAt) (arg ^^^ ones) := by
        rw [List.foldl_append, ← hcrc]
      _ = _ := congrArg (List.foldl _ _) hmsg.symm
  beforeHead hq := absurd hq (not_or.2 ⟨hg, hb⟩)
  foldAligned hq := by
    have hk8 := hf hq
    have hal : x.ptr % 8 = 0 := (h.foldAligned hq).resolve_left (by omega)
    right
    rw [advance_mod8 haw]
    omega
  tailShort hq := (Nat.sub_le _ _).trans (h.tailShort hq)

/-- An `ABSORB` step keeps what holds of the command in progress. -/
theorem JobInv.absorb {aw : Nat} {m : Memory} {n : Nat} {i : Instr} {x : Context} (haw : 4 ≤ aw) (h : JobInv aw m n i x)
    (hq : x.seq = .bsRun) (hr : x.rem ≠ 0) {b : Byte} (hb : m.read? x.ptr = some b) {p : Word} (hp : poly? x.var = some p) :
    JobInv aw m n i { x with r := Machine.absorb x.r b p, ptr := advance aw x.ptr 1, rem := x.rem - 1 } := by
  refine h.consume haw Nat.one_pos (Nat.pos_of_ne_zero hr) (by simp [hq]) (by simp [hq]) (by simp [hq]) ?_ (absurd hq)
  intro tag init p' hi
  have hvar := (h.bitSerial tag init p' hi).2.1
  have hpoly := (loadOf_bitSerial hi x).2
  rw [hvar, hpoly] at hp
  cases hp
  rw [Memory.message_one hb]
  rfl

/-- A step of the table unit that consumes `k` bytes keeps what holds of the command in progress. -/
theorem JobInv.consumeTable {aw : Nat} {m : Memory} {n : Nat} {i : Instr} {x : Context} (haw : 4 ≤ aw) (h : JobInv aw m n i x) {k : Nat}
    (hk : 0 < k) (hkr : k ≤ x.rem) (hq : (x.seq = .cHead ∨ x.seq = .cTail) ∨ x.seq = .cFold ∧ k = 8) {c : Word}
    (hc : c = (m.message x.ptr k).foldl (cbyte tabAt) x.c) :
    JobInv aw m n i { x with c := c, ptr := advance aw x.ptr k, rem := x.rem - k } := by
  have hne : x.seq ≠ .bsRun ∧ x.seq ≠ .cGuard ∧ x.seq ≠ .cBuild := by
    rcases hq with (hq | hq) | ⟨hq, -⟩ <;> simp [hq]
  obtain ⟨hbs, hg, hb⟩ := hne
  refine h.consume haw hk hkr hg hb ?_ (fun tag init p hi => absurd (h.bitSerial tag init p hi).1 hbs) fun _ => hc
  rintro hf
  rcases hq with (hq | hq) | ⟨-, hk8⟩
  · simp [hq] at hf
  · simp [hq] at hf
  · exact hk8

/-! ### The invariant across a turn -/

/-- The command in progress in a busy context. -/
theorem Inv.job {s : State} (h : Inv s) {c : Nat} {x : Context} (hx : s.ctx? c = some x) (hq : x.seq ≠ .idle) :
    ∃ i, x.job = some i ∧ JobInv s.aw s.mem c i x :=
  (h.jobs c x hx).job hq

/-- A command leaves the port. -/
theorem Inv.dropCommand {s : State} (h : Inv s) (c : Nat) : Inv (s.dropCommand c) :=
  h.congr rfl rfl rfl rfl rfl rfl fun _ hk => List.mem_of_mem_eraseP hk

/-- A response is returned. -/
theorem Inv.respond {s : State} (h : Inv s) (c : Nat) (r : Response) : Inv (s.respond c r) :=
  h.congr rfl rfl rfl rfl rfl rfl fun _ hk => hk

/-- The command in progress of a context that is not the builder ends. -/
theorem Inv.finish {s : State} (h : Inv s) {c : Nat} {x : Context} (hx : s.ctx? c = some x) (hb : x.seq ≠ .cBuild) :
    Inv (s.setCtx c { x with seq := .idle, job := none }) :=
  h.setCtx hx hb (by simp) rfl (h.cursors c x hx) (by simp)

/-- The accept step that takes a command keeps the invariant. -/
theorem Inv.taken {s : State} (h : Inv s) {c : Nat} {x : Context} (hx : s.ctx? c = some x) (hq : x.seq = .idle) {k : Command}
    (hk : s.nextCommand c = some k) {i : Instr} (hi : decode k = .ok i) (hok : ¬ BadRange s.aw s.mem i.addr i.len) :
    Inv ((s.dropCommand c).setCtx c (loadOf i x)) := by
  have hfits := h.fits hk hi
  have hctx : i.ctx = c := (decode_operands hi).1.trans (nextCommand_ctx hk).1
  have hseq : (loadOf i x).seq = .bsRun ∨ (loadOf i x).seq = .cGuard := by
    rw [loadOf_seq]
    split
    · exact .inl rfl
    · exact .inr rfl
  have hjob : ContextInv s.aw s.mem c (loadOf i x) :=
    .of (loadOf_job i x) (by rcases hseq with hl | hl <;> simp [hl]) (hctx ▸ loadOf_jobInv x hfits hok)
  exact (h.dropCommand c).setCtx hx (by simp [hq]) (by rcases hseq with hl | hl <;> simp [hl]) hjob
    (by simpa using ⟨hfits.addr, hfits.len⟩) (by rcases hseq with hl | hl <;> simp [hl])

/-- A busy context other than the builder goes on with its command in the same phase: the invariant is kept where `JobInv` is. -/
theorem Inv.consumed {s : State} (h : Inv s) {c : Nat} {x : Context} (hx : s.ctx? c = some x) (hi : x.seq ≠ .idle) (hb : x.seq ≠ .cBuild)
    {k : Nat} {r a : Word}
    (hj : ∀ i, JobInv s.aw s.mem c i x → JobInv s.aw s.mem c i { x with r := r, c := a, ptr := advance s.aw x.ptr k, rem := x.rem - k }) :
    Inv (s.setCtx c { x with r := r, c := a, ptr := advance s.aw x.ptr k, rem := x.rem - k }) := by
  obtain ⟨i, hjob, hinv⟩ := h.job hx hi
  exact h.setCtx hx hb hb (.of hjob hi (hj i hinv)) ⟨advance_lt _ _ _, (Nat.sub_le _ _).trans_lt (h.cursors c x hx).2⟩
    (h.pastGuard c x hx)

/-- A busy context of the table unit changes its phase: what the invariant asks of the context in its new phase. -/
theorem Inv.setSeq_context {s : State} (h : Inv s) {c : Nat} {x : Context} (hx : s.ctx? c = some x) (hi : x.seq ≠ .idle)
    (hbs : x.seq ≠ .bsRun) {q : Seq} (hq : q = .cBuild ∨ q = .cHead ∨ q = .cFold ∨ q = .cTail)
    (hbuild : q = .cBuild → x.seq = .cGuard) (hfold : q = .cFold → x.rem = 0 ∨ x.ptr % 8 = 0) (htail : q = .cTail → x.rem ≤ 7) :
    ContextInv s.aw s.mem c { x with seq := q } := by
  obtain ⟨i, hjob, hinv⟩ := h.job hx hi
  refine .of hjob ?_ (hinv.setSeq hbs hq (fun hb => hinv.beforeHead (.inl (hbuild hb))) hfold htail)
  rcases hq with rfl | rfl | rfl | rfl <;> simp

/-- A phase change among the phases past the guard keeps the invariant, once the table is ready. -/
theorem Inv.setSeq {s : State} (h : Inv s) {c : Nat} {x : Context} (hx : s.ctx? c = some x) (hi : x.seq ≠ .idle) (hbs : x.seq ≠ .bsRun)
    (hb : x.seq ≠ .cBuild) (hready : s.tblState = .ready) {q : Seq} (hq : q = .cHead ∨ q = .cFold ∨ q = .cTail)
    (hfold : q = .cFold → x.rem = 0 ∨ x.ptr % 8 = 0) (htail : q = .cTail → x.rem ≤ 7) : Inv (s.setCtx c { x with seq := q }) := by
  have hqb : q ≠ .cBuild := by rcases hq with rfl | rfl | rfl <;> simp
  exact h.setCtx hx hb hqb (h.setSeq_context hx hi hbs (.inr hq) (absurd · hqb) hfold htail) (h.cursors c x hx) fun _ => hready

/-- While the table is not being built no context is the builder. -/
theorem Inv.noBuilder {s : State} (h : Inv s) (ht : s.tblState ≠ .building) {n : Nat} {x : Context} (hx : s.ctx? n = some x) :
    x.seq ≠ .cBuild :=
  fun hq => ht (h.builderIff.1 ⟨n, x, hx, hq⟩)

/-- The guard step that finds `EMPTY` keeps the invariant: its context becomes the one builder, with no entry written. -/
theorem Inv.guardWon {s : State} (h : Inv s) {c : Nat} {x : Context} (hx : s.ctx? c = some x) (hq : x.seq = .cGuard)
    (ht : s.tblState = .empty) : Inv ({ s with tblState := .building, tblIdx := 0#12 }.setCtx c { x with seq := .cBuild }) where
  width := h.width
  memory := h.memory
  space := h.space
  cursors := h.setCtx_cursors (h.cursors c x hx)
  port := h.port
  contexts := by simpa using h.contexts
  jobs := h.setCtx_jobs (h.setSeq_context hx (by simp [hq]) (by simp [hq]) (.inl rfl) (fun _ => hq) (by simp) (by simp))
  oneBuilder := by
    have hbuilder : ∀ n y, (s.setCtx c { x with seq := .cBuild }).ctx? n = some y → y.seq = .cBuild → n = c := by
      intro n y hy hyq
      rcases State.ctx?_setCtx_cases hy with ⟨hn, -⟩ | ⟨-, hy'⟩
      · exact hn
      · exact absurd hyq (h.noBuilder (by simp [ht]) hy')
    exact fun m n y z hy hz hyq hzq => (hbuilder m y hy hyq).trans (hbuilder n z hz hzq).symm
  builderIff := ⟨fun _ => rfl, fun _ => ⟨c, _, State.ctx?_setCtx_same hx, rfl⟩⟩
  index := by simp
  partial_ _ _ hi := by simp at hi
  final hr := by simp at hr
  pastGuard n y hy hyq := by
    rcases State.ctx?_setCtx_cases hy with ⟨-, rfl⟩ | ⟨-, hy'⟩
    · simp at hyq
    · simpa [ht] using h.pastGuard n y hy' hyq

/-- While a context is the builder, the entries below `TBL_IDX` are final. -/
theorem Inv.filledBelow {s : State} (h : Inv s) {c : Nat} {x : Context} (hx : s.ctx? c = some x) (hq : x.seq = .cBuild) :
    s.tblState = .building ∧ FilledBelow s.table s.tblIdx.toNat := by
  have ht := h.builderIff.1 ⟨c, x, hx, hq⟩
  exact ⟨ht, h.partial_ ht⟩

/-- An entry-write step keeps the invariant: one more entry is final. -/
theorem Inv.entryWrite {s : State} (h : Inv s) {c : Nat} {x : Context} (hx : s.ctx? c = some x) (hq : x.seq = .cBuild)
    (hi : s.tblIdx.toNat < 2048) : Inv (entryWrite s) := by
  obtain ⟨ht, hfilled⟩ := h.filledBelow hx hq
  obtain ⟨hfilled', hidx⟩ := filledBelow_entryWrite hi hfilled
  exact { h with
    index := by omega
    partial_ := fun _ => hidx ▸ hfilled'
    final := fun hr => by simp [ht] at hr }

/-- The publish step keeps the invariant: the table is full, and its one builder leaves `C_BUILD`. -/
theorem Inv.publish {s : State} (h : Inv s) {c : Nat} {x : Context} (hx : s.ctx? c = some x) (hq : x.seq = .cBuild)
    (hi : s.tblIdx.toNat = 2048) : Inv (publishStep c x s) := by
  obtain ⟨ht, hfilled⟩ := h.filledBelow hx hq
  have hnone : ∀ n y, (s.setCtx c { x with seq := .cHead }).ctx? n = some y → y.seq ≠ .cBuild := by
    intro n y hy hyq
    rcases State.ctx?_setCtx_cases hy with ⟨-, rfl⟩ | ⟨hn, hy'⟩
    · simp at hyq
    · exact hn (h.oneBuilder n c y x hy' hx hyq hq)
  exact {
    width := h.width
    memory := h.memory
    space := h.space
    cursors := h.setCtx_cursors (h.cursors c x hx)
    port := h.port
    contexts := by simpa using h.contexts
    jobs := h.setCtx_jobs (h.setSeq_context hx (by simp [hq]) (by simp [hq]) (.inr (.inl rfl)) (by simp) (by simp) (by simp))
    oneBuilder := fun m _ y _ hy _ hyq => absurd hyq (hnone m y hy)
    builderIff := ⟨fun ⟨n, y, hy, hyq⟩ => absurd hyq (hnone n y hy), fun hr => by simp at hr⟩
    index := h.index
    partial_ := fun hr => by simp at hr
    final := fun _ => filledBelow_full (hi ▸ hfilled)
    pastGuard := fun _ _ _ _ => rfl }

/-- A turn keeps the invariant. -/
theorem Inv.turnTo {s t : State} (h : Inv s) {c : Nat} (ht : TurnTo c s t) : Inv t := by
  cases ht with
  | absent | noCommand | held | overrun => exact h
  | illegal | badOperands => exact (h.dropCommand c).respond c _
  | taken x hx hq k hk i hi hok => exact h.taken hx hq hk hi hok
  | absorb x hx hq hr b hb p hp =>
    exact h.consumed hx (by simp [hq]) (by simp [hq]) fun i hj => hj.absorb h.width hq hr hb hp
  | finishBitSerial x hx hq hr => exact (h.finish hx (by simp [hq])).respond c _
  | guardWon x hx hq ht => exact h.guardWon hx hq ht
  | guardPassed x hx hq ht =>
    exact h.setSeq hx (by simp [hq]) (by simp [hq]) (by simp [hq]) ht (.inl rfl) (by simp) (by simp)
  | entryWrite x hx hq hi => exact h.entryWrite hx hq hi
  | publish x hx hq hi => exact h.publish hx hq hi
  | byte x hx hq hr b hb =>
    have hphase : x.seq = .cHead ∨ x.seq = .cTail := hq.imp_left And.left
    have hready := h.pastGuard c x hx (hphase.imp_right .inr)
    refine h.consumed hx (by rcases hphase with hp | hp <;> simp [hp]) (by rcases hphase with hp | hp <;> simp [hp]) fun i hj => ?_
    refine hj.consumeTable h.width Nat.one_pos (Nat.pos_of_ne_zero hr) (.inl hphase) ?_
    rw [h.table_get hready, Memory.message_one hb]
    rfl
  | leaveHead x hx hq hr =>
    exact h.setSeq hx (by simp [hq]) (by simp [hq]) (by simp [hq]) (h.pastGuard c x hx (.inl hq)) (.inr (.inl rfl))
      (fun _ => hr.symm) (by simp)
  | fold x hx hq hr ha w hw =>
    have hready := h.pastGuard c x hx (.inr (.inl hq))
    refine h.consumed hx (by simp [hq]) (by simp [hq]) fun i hj => ?_
    refine hj.consumeTable h.width (by decide) hr (.inr ⟨hq, rfl⟩) ?_
    rw [h.table_get hready, Memory.message_eight hw, cfold_tabAt]
  | leaveFold x hx hq hr =>
    exact h.setSeq hx (by simp [hq]) (by simp [hq]) (by simp [hq]) (h.pastGuard c x hx (.inr (.inl hq))) (.inr (.inr rfl))
      (by simp) (fun _ => by omega)
  | finishCrc32c x hx hq hr => exact (h.finish hx (by simp [hq])).respond c _

/-! ### The invariant across the other events -/

/-- A requester presents a command. -/
theorem Inv.present {s : State} (h : Inv s) (k : Command) : Inv (s.present k) :=
  { h with
    port := fun j hj => by
      rcases List.mem_append.1 hj with hj | hj
      · exact h.port j hj
      · obtain rfl := List.mem_singleton.1 hj
        exact Command.carried_fits s.aw k }

/-- What holds of a context looks at no byte outside the message of its command in progress. -/
theorem ContextInv.congr_mem {aw : Nat} {m m' : Memory} {n : Nat} {x : Context} (h : ContextInv aw m n x) (hv : ∀ a, m.valid a = m'.valid a)
    (hr : ∀ i, x.job = some i → ∀ a, i.addr ≤ a → a < i.addr + i.len → m.read? a = m'.read? a) : ContextInv aw m' n x := by
  unfold ContextInv at h ⊢
  cases hj : x.job with
  | none => simpa [hj] using h
  | some i =>
    rw [hj] at h
    exact ⟨h.1, h.2.congr_mem hv (hr i hj)⟩

/-- A host write to a byte of no unanswered command's message keeps the invariant. -/
theorem Inv.hostWrite {s : State} (h : Inv s) {a : Nat} (hf : s.inFlight a = false) (b : Byte) :
    Inv { s with mem := s.mem.write a b } :=
  { h with
    memory := Memory.write_wf _ _ _ h.memory
    space := (Memory.write_within _ _ _ _).trans h.space
    jobs := fun n x hx => by
      refine (h.jobs n x hx).congr_mem (fun j => (Memory.valid_write _ _ _ _).symm) fun i hj j h1 h2 => ?_
      have hne : j ≠ a := by
        rintro rfl
        exact State.outside_of_not_inFlight hf hx hj ⟨h1, h2⟩
      simp [Memory.read?_write, hne] }

/-- A block whose contexts, guard and count are as a reset leaves them, with nothing at the port, has the invariant. -/
theorem Inv.of_powerUp {s : State} {k n : Nat} (hw : 4 ≤ s.aw) (hm : s.mem.wf = true) (hs : s.mem.within s.aw = true) (hp : s.port = [])
    (hn : 1 ≤ n) (hc : s.ctxs = contextsFrom s.aw k 0 n) (ht : s.tblState = .empty) (hi : s.tblIdx = 0#12) : Inv s := by
  have hctx : ∀ c x, s.ctx? c = some x → x = Context.powerUp s.aw k c := by
    intro c x hx
    rw [State.ctx?, hc] at hx
    simpa using contextsFrom_getElem? s.aw k 0 n c x hx
  have hidle : ∀ c x, s.ctx? c = some x → x.seq = .idle := by
    intro c x hx
    rw [hctx c x hx, Context.powerUp_seq]
  exact {
    width := hw
    memory := hm
    space := hs
    cursors := fun c x hx => hctx c x hx ▸ Context.powerUp_cursor s.aw k c
    port := by simp [hp]
    contexts := List.ne_nil_of_length_pos (by rw [hc, length_contextsFrom]; exact hn)
    jobs := fun c x hx => hctx c x hx ▸ Context.powerUp_seq s.aw k c
    oneBuilder := fun m _ x _ hx _ hq => by simp [hidle m x hx] at hq
    builderIff := ⟨fun ⟨c, x, hx, hq⟩ => by simp [hidle c x hx] at hq, fun hb => by simp [ht] at hb⟩
    index := by simp [hi]
    partial_ := fun hb => by simp [ht] at hb
    final := fun hr => by simp [ht] at hr
    pastGuard := fun c x hx hq => by simp [hidle c x hx] at hq }

/-- Reset keeps the invariant. -/
theorem Inv.resetBlock {s : State} (h : Inv s) : Inv s.resetBlock :=
  .of_powerUp h.width h.memory h.space rfl (List.length_pos_of_ne_nil h.contexts) rfl rfl rfl

/-! ### The obligations -/

/-- Settles O49: a turn by the cases of `TurnTo`, every other event by a lemma of its own. -/
theorem everyStepKeepsTheInvariant : Obligations.EveryStepKeepsTheInvariant := by
  intro s t hs h
  obtain ⟨es, n, u, rfl, hu⟩ := step_cases h
  have hinv : Inv { s with events := es, freeCtr := n } := hs.congr rfl rfl rfl rfl rfl rfl fun _ hk => hk
  obtain ⟨c, ht, -⟩ | ⟨k, -, rfl⟩ | ⟨a, b, -, hf, rfl⟩ | ⟨-, rfl⟩ := hu
  · exact hinv.turnTo ht
  · exact hinv.present k
  · exact hinv.hostWrite hf b
  · exact hinv.resetBlock

/-- Settles O44: `step_frame` for the steps of the block, and a read after a write for those of the host. -/
theorem blockNeverWritesMemory : Obligations.BlockNeverWritesMemory := by
  intro s
  refine ⟨fun t h hno => ?_, fun a b es he => ⟨fun hf => ?_, fun hf => ?_⟩⟩
  · obtain ⟨-, -, hmem | ⟨a, b, es, he, -⟩⟩ := step_frame h
    · exact hmem
    · exact absurd he (hno a b es)
  · rw [step_hostWrite he, if_pos hf]
  · refine ⟨{ s with events := es, mem := s.mem.write a b }, by simp [step_hostWrite he, hf], rfl, fun n hn => ?_, fun n => ?_, fun hv => ?_⟩
    · simp [Memory.read?_write, hn]
    · exact Memory.valid_write _ _ _ _
    · simp [Memory.read?_write, hv]

/-- Settles O58: `step_frame`, and a host write changes no `Valid`. -/
theorem noStepChangesTheParameters : Obligations.NoStepChangesTheParameters := by
  intro s t h
  obtain ⟨haw, hlen, hmem⟩ := step_frame h
  refine ⟨haw, hlen, fun a => ?_⟩
  obtain hmem | ⟨a', b, es, -, hmem⟩ := hmem
  · rw [hmem]
  · rw [hmem, Memory.valid_write]

/-- Settles O46: the fields of `State.powerOn`, whose contexts are all as `Context.powerUp` makes them. -/
theorem resetLeavesTheBlockIdle : Obligations.ResetLeavesTheBlockIdle := by
  refine ⟨fun p => ⟨fun n x hx => ?_, rfl, rfl, rfl, by simp, rfl⟩, rfl, Platform.default_legal.contexts⟩
  rw [State.powerOn_ctx? p n x hx, Context.powerUp_seq]

/-- Settles O48: power-on is a reset of a block with legal parameters. -/
theorem invariantHoldsAtReset : Obligations.InvariantHoldsAtReset := by
  have hpower : ∀ p : Platform, p.Legal → Inv (State.powerOn p) := fun p hp =>
    .of_powerUp hp.width hp.canonical hp.memory rfl hp.contexts rfl rfl rfl
  exact ⟨hpower, hpower _ Platform.default_legal⟩

end Sys2Proof
end

section
/-! Proofs of the statements about the state: what an accept step and a turn leave unchanged, the privacy of contexts, the transitions of the
guard, and R25 from the invariant. -/

namespace Sys2Proof.Machine

/-! ### What an accept step leaves unchanged -/

/-- Everything an accept step can do when it reaches a next state: the command waits, its operands are refused, or it is taken. -/
theorem accept_cases {c : Nat} {addr len : Nat} {load : Context → Context} {s t : State} (h : accept c addr len load s = .next t) :
    (t = s ∧ ∀ x, s.ctx? c = some x → x.seq ≠ .idle) ∨
      ∃ x, s.ctx? c = some x ∧ x.seq = .idle ∧
        ((BadRange s.aw s.mem addr len ∧ t = s.raise c .invalidArgument) ∨
          (¬ BadRange s.aw s.mem addr len ∧ t = (s.dropCommand c).setCtx c (load x))) := by
  cases hx : s.ctx? c with
  | none =>
    rw [accept_absent hx] at h
    cases h
    exact .inl ⟨rfl, by simp⟩
  | some x =>
    by_cases hq : x.seq = .idle
    · refine .inr ⟨x, rfl, hq, ?_⟩
      by_cases hbad : BadRange s.aw s.mem addr len
      · rw [accept_refused hx hq hbad] at h
        cases h
        exact .inl ⟨hbad, rfl⟩
      · rw [accept_taken hx hq hbad] at h
        cases h
        exact .inr ⟨hbad, rfl⟩
    · rw [accept_busy hx hq] at h
      cases h
      exact .inl ⟨rfl, by simpa using hq⟩

/-- The accept step of a bit-serial command leaves `C` alone, that of `C32C.UPDATE` leaves `R` and `VAR` alone. -/
theorem loadOf_frame (i : Instr) (x : Context) :
    (i.bitSerial?.isSome = true → (loadOf i x).c = x.c) ∧
      (i.bitSerial? = none → (loadOf i x).r = x.r ∧ (loadOf i x).var = x.var) := by
  cases hi : i.bitSerial? with
  | some v => simp [loadOf_bitSerial hi x]
  | none =>
    cases i with
    | c32cUpdate => simp [loadOf, loadCrc32c]
    | _ => simp [Instr.bitSerial?] at hi

/-- When a command for context `c` leaves the port, none enters it and every command for another context stays. -/
theorem mem_dropCommand_port (s : State) (c : Nat) :
    (∀ k ∈ (s.dropCommand c).port, k ∈ s.port) ∧ (∀ k ∈ s.port, k.ctx ≠ c → k ∈ (s.dropCommand c).port) :=
  ⟨fun _ hk => List.mem_of_mem_eraseP hk, fun _ hk hne => (List.mem_eraseP_of_neg (by simpa using hne)).2 hk⟩

/-! ### What a turn leaves unchanged -/

/-- What a turn can make of its own context, register by register. -/
inductive ContextTo (x : Context) : Context → Prop where
  /-- The accept step loads it. -/
  | loaded (hq : x.seq = .idle) (i : Instr) : ContextTo x (loadOf i x)
  /-- An `ABSORB` step moves `R` and the cursor. -/
  | absorbed (hq : x.seq = .bsRun) (r : Word) (p n : Nat) : ContextTo x { x with r := r, ptr := p, rem := n }
  /-- A byte step and a fold step move `C` and the cursor. -/
  | folded (hq : x.seq = .cHead ∨ x.seq = .cFold ∨ x.seq = .cTail) (a : Word) (p n : Nat) :
      ContextTo x { x with c := a, ptr := p, rem := n }
  /-- A phase change and a finish step touch no register but `SEQ` (and the record of the command in progress). -/
  | moved (q : Seq) (j : Option Instr) : ContextTo x { x with seq := q, job := j }

/-- `VAR` changes only in `IDLE`, `R` only in `IDLE` and `BS_RUN`, `C` not in `BS_RUN`, and in `C_GUARD` and `C_BUILD` no register but `SEQ`. -/
theorem ContextTo.frame {x y : Context} (h : ContextTo x y) :
    (x.seq ≠ .idle → y.var = x.var) ∧ (x.seq ≠ .idle → x.seq ≠ .bsRun → y.r = x.r) ∧
      (x.seq = .bsRun ∨ x.seq = .cGuard ∨ x.seq = .cBuild → y.c = x.c) ∧
      (x.seq = .cGuard ∨ x.seq = .cBuild → y.ptr = x.ptr ∧ y.rem = x.rem) := by
  cases h with
  | loaded hq i => simp [hq]
  | absorbed hq r p n => simp [hq]
  | folded hq a p n => rcases hq with hq | hq | hq <;> simp [hq]
  | moved q j => simp

/-- A turn writes no context, or its own in one of the ways of `ContextTo`. -/
theorem TurnTo.ctxs_cases {s t : State} {c : Nat} (h : TurnTo c s t) :
    t.ctxs = s.ctxs ∨ ∃ x y, s.ctx? c = some x ∧ ContextTo x y ∧ t.ctxs = (s.setCtx c y).ctxs := by
  cases h with
  | absent | noCommand | held | overrun | illegal | badOperands | entryWrite => exact .inl rfl
  | taken x hx hq k hk i => exact .inr ⟨x, _, hx, .loaded hq i, rfl⟩
  | absorb x hx hq => exact .inr ⟨x, _, hx, .absorbed hq _ _ _, rfl⟩
  | byte x hx hq => exact .inr ⟨x, _, hx, .folded (hq.imp And.left .inr) _ _ _, rfl⟩
  | fold x hx hq => exact .inr ⟨x, _, hx, .folded (.inr (.inl hq)) _ _ _, rfl⟩
  | guardWon x hx | guardPassed x hx | publish x hx | leaveHead x hx | leaveFold x hx | finishBitSerial x hx | finishCrc32c x hx =>
    exact .inr ⟨x, _, hx, .moved _ _, rfl⟩

/-- A turn writes no context but its own. -/
theorem TurnTo.ctx?_other {s t : State} {c : Nat} (h : TurnTo c s t) {n : Nat} (hn : n ≠ c) : t.ctx? n = s.ctx? n := by
  obtain hs | ⟨x, y, -, -, hs⟩ := h.ctxs_cases
  · exact State.ctx?_of_ctxs_eq hs n
  · rw [State.ctx?_of_ctxs_eq hs, State.ctx?_setCtx_other hn]

/-- A turn changes its own context in one of the ways of `ContextTo`. -/
theorem TurnTo.ctx?_own {s t : State} {c : Nat} (h : TurnTo c s t) {x y : Context} (hx : s.ctx? c = some x) (hy : t.ctx? c = some y) :
    ContextTo x y := by
  obtain hs | ⟨x', y', hx', hto, hs⟩ := h.ctxs_cases
  · obtain rfl : x = y := by simpa [State.ctx?_of_ctxs_eq hs, hx] using hy
    exact .moved x.seq x.job
  · obtain rfl : x' = x := by simpa [hx] using hx'.symm
    obtain rfl : y' = y := by simpa [State.ctx?_of_ctxs_eq hs, State.ctx?_setCtx_same hx] using hy
    exact hto

/-- What a turn makes of the shared state: nothing, or what the guard step, the entry-write step and the publish step do to it. -/
theorem TurnTo.shared_cases {s t : State} {c : Nat} (h : TurnTo c s t) :
    (t.tblState = s.tblState ∧ t.tblIdx = s.tblIdx ∧ t.table = s.table) ∨
      ∃ x, s.ctx? c = some x ∧
        ((x.seq = .cGuard ∧ s.tblState = .empty ∧ t.tblState = .building ∧ t.tblIdx = 0#12 ∧ t.table = s.table) ∨
          (x.seq = .cBuild ∧ s.tblIdx.toNat < 2048 ∧ t = Machine.entryWrite s) ∨
          (x.seq = .cBuild ∧ s.tblIdx.toNat = 2048 ∧ t.tblState = .ready ∧ t.tblIdx = s.tblIdx ∧ t.table = s.table)) := by
  cases h with
  | guardWon x hx hq ht => exact .inr ⟨x, hx, .inl ⟨hq, ht, rfl, rfl, rfl⟩⟩
  | entryWrite x hx hq hi => exact .inr ⟨x, hx, .inr (.inl ⟨hq, hi, rfl⟩)⟩
  | publish x hx hq hi => exact .inr ⟨x, hx, .inr (.inr ⟨hq, hi, rfl, rfl, rfl⟩)⟩
  | _ => exact .inl ⟨rfl, rfl, rfl⟩

/-- Only the guard step and the builder touch the shared state. -/
theorem TurnTo.shared_frame {s t : State} {c : Nat} (h : TurnTo c s t) {x : Context} (hx : s.ctx? c = some x) (hg : x.seq ≠ .cGuard)
    (hb : x.seq ≠ .cBuild) : t.tblState = s.tblState ∧ t.tblIdx = s.tblIdx ∧ t.table = s.table := by
  obtain hsame | ⟨x', hx', hcase⟩ := h.shared_cases
  · exact hsame
  · cases hx.symm.trans hx'
    obtain ⟨hq, -⟩ | ⟨hq, -⟩ | ⟨hq, -⟩ := hcase
    · exact absurd hq hg
    · exact absurd hq hb
    · exact absurd hq hb

/-- What a turn does at the two ports: nothing; in `IDLE` a command leaves, perhaps with an error response; and the two finish steps return
one response. -/
theorem TurnTo.ports_cases {s t : State} {c : Nat} (h : TurnTo c s t) :
    (t.port = s.port ∧ t.outbox = s.outbox) ∨
      ∃ x, s.ctx? c = some x ∧
        ((x.seq = .idle ∧ t.port = (s.dropCommand c).port ∧
            (t.outbox = s.outbox ∨ ∃ e, t.outbox = s.outbox ++ [{ ctx := c, resp := .err e }])) ∨
          ((x.seq = .bsRun ∨ x.seq = .cTail) ∧ t.port = s.port ∧ ∃ v, t.outbox = s.outbox ++ [{ ctx := c, resp := .ok v }])) := by
  cases h with
  | illegal x hx hq | badOperands x hx hq => exact .inr ⟨x, hx, .inl ⟨hq, rfl, .inr ⟨_, rfl⟩⟩⟩
  | taken x hx hq => exact .inr ⟨x, hx, .inl ⟨hq, rfl, .inl rfl⟩⟩
  | finishBitSerial x hx hq => exact .inr ⟨x, hx, .inr ⟨.inl hq, rfl, _, rfl⟩⟩
  | finishCrc32c x hx hq => exact .inr ⟨x, hx, .inr ⟨.inr hq, rfl, _, rfl⟩⟩
  | _ => exact .inl ⟨rfl, rfl⟩

/-- Only an accept step takes a command from the port, and at most one response is returned, by an accept step or a finish step. -/
theorem TurnTo.ports_frame {s t : State} {c : Nat} (h : TurnTo c s t) {x : Context} (hx : s.ctx? c = some x) :
    (x.seq ≠ .idle → t.port = s.port) ∧
      ∃ rs, t.outbox = s.outbox ++ rs ∧ rs.length ≤ 1 ∧ (x.seq ≠ .idle → x.seq ≠ .bsRun → x.seq ≠ .cTail → rs = []) := by
  obtain ⟨hp, ho⟩ | ⟨x', hx', hcase⟩ := h.ports_cases
  · exact ⟨fun _ => hp, [], by simpa using ho, Nat.zero_le 1, fun _ _ _ => rfl⟩
  · cases hx.symm.trans hx'
    obtain ⟨hq, -, ho | ⟨e, ho⟩⟩ | ⟨hq, hp, v, ho⟩ := hcase
    · exact ⟨absurd hq, [], by simpa using ho, Nat.zero_le 1, fun _ _ _ => rfl⟩
    · exact ⟨absurd hq, _, ho, Nat.le_refl 1, absurd hq⟩
    · exact ⟨fun _ => hp, _, ho, Nat.le_refl 1, fun _ hbs htail => absurd hq (not_or.2 ⟨hbs, htail⟩)⟩

/-- A turn touches neither of the model's own fields. -/
theorem TurnTo.own_fields {s t : State} {c : Nat} (h : TurnTo c s t) : t.events = s.events ∧ t.freeCtr = s.freeCtr := by
  cases h <;> exact ⟨rfl, rfl⟩

/-! ### A turn does not read another context -/

/-- Writes to two contexts commute. -/
theorem State.setCtx_comm (s : State) {m n : Nat} (h : m ≠ n) (x y : Context) :
    (s.setCtx m x).setCtx n y = (s.setCtx n y).setCtx m x := by
  simp only [State.setCtx, List.set_comm x y h]

/-- A refusal of one context's command commutes with a write to a context. -/
theorem State.raise_setCtx (s : State) (c n : Nat) (y : Context) (e : ErrCode) :
    (s.setCtx n y).raise c e = (s.raise c e).setCtx n y := rfl

section StepsCommute
/-! The step of each phase of context `c` commutes with a write to another context `n`: it finds its own context and the shared state as
before, so the branches are the same, and the two writes commute. -/

variable {c n : Nat} (hn : n ≠ c) (s : State) (x y : Context)
include hn

theorem accept_setCtx (addr len : Nat) (load : Context → Context) :
    accept c addr len load (s.setCtx n y) = mapNext (fun t => t.setCtx n y) (accept c addr len load s) := by
  cases hx : s.ctx? c with
  | none =>
    rw [accept_absent hx, accept_absent ((State.ctx?_setCtx_other hn.symm).trans hx)]
    rfl
  | some x =>
    have hx' : (s.setCtx n y).ctx? c = some x := (State.ctx?_setCtx_other hn.symm).trans hx
    by_cases hq : x.seq = .idle
    · by_cases hbad : BadRange s.aw s.mem addr len
      · rw [accept_refused hx hq hbad, accept_refused hx' hq hbad]
        rfl
      · rw [accept_taken hx hq hbad, accept_taken hx' hq hbad]
        exact congrArg Host.Outcome.next (State.setCtx_comm (s.dropCommand c) hn y (load x))
    · rw [accept_busy hx hq, accept_busy hx' hq]
      rfl

theorem acceptStep_setCtx : acceptStep c (s.setCtx n y) = mapNext (fun t => t.setCtx n y) (acceptStep c s) := by
  have hk : (s.setCtx n y).nextCommand c = s.nextCommand c := rfl
  simp only [acceptStep, hk]
  cases hc : s.nextCommand c with
  | none => rfl
  | some k =>
    cases hi : decode k with
    | error e => simp only [hi, mapNext, State.raise_setCtx]
    | ok i =>
      have hic : i.ctx = c := (decode_operands hi).1.trans (nextCommand_ctx hc).1
      simp only [hi, exec_eq_accept]
      exact accept_setCtx (hic.symm ▸ hn) s y _ _ _

theorem bitSerialStep_setCtx : bitSerialStep c x (s.setCtx n y) = mapNext (fun t => t.setCtx n y) (bitSerialStep c x s) := by
  simp only [bitSerialStep, absorbStep, State.setCtx_mem]
  split
  · exact congrArg (fun t => Host.Outcome.next (State.respond t c _)) (State.setCtx_comm s hn y _)
  · cases s.mem.read? x.ptr with
    | none => rfl
    | some b =>
      cases poly? x.var with
      | none => rfl
      | some p => exact congrArg Host.Outcome.next (State.setCtx_comm s hn y _)

theorem guardStep_setCtx : guardStep c x (s.setCtx n y) = (guardStep c x s).setCtx n y := by
  unfold guardStep
  rw [State.setCtx_tblState]
  cases s.tblState with
  | empty => exact State.setCtx_comm { s with tblState := .building, tblIdx := 0#12 } hn y _
  | building => rfl
  | ready => exact State.setCtx_comm s hn y _

theorem buildStep_setCtx : buildStep c x (s.setCtx n y) = (buildStep c x s).setCtx n y := by
  unfold buildStep
  rw [State.setCtx_tblIdx]
  split_ifs
  · rfl
  · exact State.setCtx_comm { s with tblState := .ready } hn y _
  · rfl

theorem byteStep_setCtx : byteStep c x (s.setCtx n y) = mapNext (fun t => t.setCtx n y) (byteStep c x s) := by
  simp only [byteStep, State.setCtx_mem]
  cases s.mem.read? x.ptr with
  | none => rfl
  | some b => exact congrArg Host.Outcome.next (State.setCtx_comm s hn y _)

theorem headStep_setCtx : headStep c x (s.setCtx n y) = mapNext (fun t => t.setCtx n y) (headStep c x s) := by
  unfold headStep
  split
  · exact byteStep_setCtx hn s x y
  · exact congrArg Host.Outcome.next (State.setCtx_comm s hn y _)

theorem foldPhaseStep_setCtx : foldPhaseStep c x (s.setCtx n y) = mapNext (fun t => t.setCtx n y) (foldPhaseStep c x s) := by
  simp only [foldPhaseStep, foldStep, State.setCtx_mem]
  split
  · split
    · cases s.mem.read8? x.ptr with
      | none => rfl
      | some w => exact congrArg Host.Outcome.next (State.setCtx_comm s hn y _)
    · rfl
  · exact congrArg Host.Outcome.next (State.setCtx_comm s hn y _)

theorem tailStep_setCtx : tailStep c x (s.setCtx n y) = mapNext (fun t => t.setCtx n y) (tailStep c x s) := by
  unfold tailStep
  split
  · exact byteStep_setCtx hn s x y
  · exact congrArg (fun t => Host.Outcome.next (State.respond t c _)) (State.setCtx_comm s hn y _)

/-- A turn does the same whatever the registers of another context hold: it commutes with a write to that context. -/
theorem turn_setCtx : turn c (s.setCtx n y) = mapNext (fun t => t.setCtx n y) (turn c s) := by
  have hc : (s.setCtx n y).ctx? c = s.ctx? c := State.ctx?_setCtx_other hn.symm
  simp only [turn, hc]
  cases s.ctx? c with
  | none => rfl
  | some x =>
    cases hq : x.seq with
    | idle => simpa only [hq] using acceptStep_setCtx hn s y
    | bsRun => simpa only [hq] using bitSerialStep_setCtx hn s x y
    | cGuard => simpa only [hq, mapNext] using congrArg Host.Outcome.next (guardStep_setCtx hn s x y)
    | cBuild => simpa only [hq, mapNext] using congrArg Host.Outcome.next (buildStep_setCtx hn s x y)
    | cHead => simpa only [hq] using headStep_setCtx hn s x y
    | cFold => simpa only [hq] using foldPhaseStep_setCtx hn s x y
    | cTail => simpa only [hq] using tailStep_setCtx hn s x y

end StepsCommute

end Sys2Proof.Machine

namespace Sys2Proof

open Machine

/-! ### R25 from the invariant -/

/-- The cursor as R25 (e) has it: `PTR + REM = ADDR + LEN`, unless `PTR` has wrapped to 0 at `REM = 0`. -/
theorem JobInv.cursor_sum {aw : Nat} {m : Memory} {n : Nat} {i : Instr} {x : Context} (h : JobInv aw m n i x) :
    x.ptr + x.rem = i.addr + i.len ∨ (x.rem = 0 ∧ x.ptr = 0 ∧ i.addr + i.len = 2 ^ aw) := by
  by_cases hr : x.rem = 0
  · have hptr : x.ptr = (i.addr + i.len) % 2 ^ aw := by simpa [hr, advance] using h.cursor
    have hle : i.addr + i.len ≤ 2 ^ aw := by
      by_cases hl : i.len = 0
      · simpa [hl] using h.fits.addr.le
      · exact sum_le_of_not_badRange h.operands hl
    obtain hlt | heq := hle.lt_or_eq
    · exact .inl (by rw [hptr, Nat.mod_eq_of_lt hlt, hr, Nat.add_zero])
    · exact .inr ⟨hr, by rw [hptr, heq, Nat.mod_self], heq⟩
  · have hptr := h.ptrLt hr
    have hleft := h.left
    exact .inl (by omega)

/-! ### The obligations -/

/-- Settles O13: the cases of `accept_cases`; what a taken command loads is `loadOf_frame`. -/
theorem acceptFrame : Obligations.AcceptFrame := by
  intro i s t h
  rw [exec_eq_accept] at h
  have hkept : ∀ x y, s.ctx? i.ctx = some x → s.ctx? i.ctx = some y →
      (i.bitSerial?.isSome = true → y.c = x.c) ∧ (i.bitSerial? = none → y.r = x.r ∧ y.var = x.var) := by
    intro x y hx hy
    cases hx.symm.trans hy
    exact ⟨fun _ => rfl, fun _ => ⟨rfl, rfl⟩⟩
  obtain ⟨hleaves, hstays⟩ := mem_dropCommand_port s i.ctx
  obtain ⟨rfl, -⟩ | ⟨x, hx, -, ⟨-, rfl⟩ | ⟨-, rfl⟩⟩ := accept_cases h
  · exact ⟨rfl, rfl, rfl, rfl, rfl, rfl, fun _ => rfl, rfl, fun _ _ => rfl, hkept, fun _ hk => hk, fun _ hk _ => hk⟩
  · exact ⟨rfl, rfl, rfl, rfl, rfl, rfl, fun _ => rfl, rfl, fun _ _ => rfl, hkept, hleaves, hstays⟩
  · refine ⟨rfl, rfl, rfl, rfl, rfl, rfl, fun _ => rfl, State.length_setCtx _ _ _, fun n hn => State.ctx?_setCtx_other hn, ?_, hleaves, hstays⟩
    intro x' y hx' hy
    cases hx.symm.trans hx'
    cases (State.ctx?_setCtx_same (s := s.dropCommand i.ctx) hx).symm.trans hy
    exact loadOf_frame i x

/-- Settles O31: the cases of `TurnTo.shared_cases`, where the publishing context shows that the table was being built; no other event but
reset touches the guard. -/
theorem guardOnlyMovesForward : Obligations.GuardOnlyMovesForward := by
  intro s t hs h
  have hindex := (everyStepKeepsTheInvariant s t hs h).index
  obtain ⟨es, n, u, rfl, ⟨c, ht, -⟩ | ⟨k, -, rfl⟩ | ⟨a, b, -, -, rfl⟩ | ⟨he, rfl⟩⟩ := step_cases h
  · obtain ⟨hsame, -⟩ | ⟨x, hx, ⟨hq, hempty, hto, -⟩ | ⟨-, -, rfl⟩ | ⟨hq, hfull, hto, -⟩⟩ := ht.shared_cases
    · exact ⟨.inl hsame, fun hne => absurd hsame.symm hne, hindex⟩
    · exact ⟨.inr (.inl ⟨hempty, hto⟩), fun _ _ => ⟨c, x, hx, .inl ⟨hq, hempty⟩⟩, hindex⟩
    · exact ⟨.inl rfl, fun hne => absurd rfl hne, hindex⟩
    · have hbuilding := hs.builderIff.1 ⟨c, x, hx, hq⟩
      exact ⟨.inr (.inr (.inl ⟨hbuilding, hto⟩)), fun _ _ => ⟨c, x, hx, .inr ⟨hq, hfull⟩⟩, hindex⟩
  · exact ⟨.inl rfl, fun hne => absurd rfl hne, hindex⟩
  · exact ⟨.inl rfl, fun hne => absurd rfl hne, hindex⟩
  · exact ⟨.inr (.inr (.inr ⟨⟨es, he⟩, rfl⟩)), fun _ hno => absurd he (hno es), hindex⟩

/-- Settles O50: (a) to (d) are fields of the invariant, (e) and (f) follow from `JobInv` of the command in progress. -/
theorem invariantGivesRuleR25 : Obligations.InvariantGivesRuleR25 := fun s h =>
  { atMostOneBuilder := h.oneBuilder
    builderIffBuilding := h.builderIff
    builtSoFar := h.partial_
    readyIsFinal := h.final
    phasesNeedReady := h.pastGuard
    cursor := fun n x hx hq => by
      obtain ⟨i, hjob, hinv⟩ := h.job hx hq
      exact ⟨i, hjob, hinv.cursor_sum⟩
    foldAligned := fun n x hx hq hr => by
      obtain ⟨i, -, hinv⟩ := h.job hx (by simp [hq])
      exact (hinv.foldAligned hq).resolve_left (by omega)
    tailShort := fun n x hx hq => by
      obtain ⟨i, -, hinv⟩ := h.job hx (by simp [hq])
      exact hinv.tailShort hq }

/-- Settles O55: a turn leaves the other contexts alone, and commutes with a write to one. -/
theorem contextsArePrivate : Obligations.ContextsArePrivate := by
  intro s c n y hn
  refine ⟨fun t h => ?_, turn_setCtx hn s y⟩
  have ht := turn_cases h
  obtain ⟨-, hlen, -⟩ := ht.frame
  exact ⟨ht.ctx?_other hn, hlen⟩

/-- Settles O56: what a turn does to the shared state, the ports and its own context, each by the lemma about it. -/
theorem turnFrame : Obligations.TurnFrame := by
  intro s t c x y hx hy h
  have ht := turn_cases h
  obtain ⟨haw, -, hmem⟩ := ht.frame
  obtain ⟨hevents, hctr⟩ := ht.own_fields
  obtain ⟨hvar, hr, hc, hcursor⟩ := (ht.ctx?_own hx hy).frame
  obtain ⟨hport, houtbox⟩ := ht.ports_frame hx
  exact ⟨ht.shared_frame hx, fun hq => ⟨hport hq, hvar hq⟩, hr, hc, hcursor, haw, hmem, hevents, hctr, houtbox⟩

end Sys2Proof
end

section
/-! Proofs of the statements about the memory: the byte order of an eight-byte read, the turns that read nothing but the message of their
command, and that no step from a state with the invariant stops. -/

namespace Sys2Proof.Machine

/-! ### The eight-byte read -/

/-- The eight bytes an eight-byte read puts together, one by one. -/
theorem Memory.read?_of_read8? {m : Memory} {a : Nat} {w : DWord} (h : m.read8? a = some w) {j : Nat} (hj : j < 8) :
    m.read? (a + j) = some (w.extractLsb' (8 * j) 8) := by
  unfold Memory.read8? at h
  split at h
  next b0 b1 b2 b3 b4 b5 b6 b7 h0 h1 h2 h3 h4 h5 h6 h7 =>
    cases h
    interval_cases j <;> simp [le64_bytes, h0, h1, h2, h3, h4, h5, h6, h7]
  next => cases h

/-- An eight-byte read depends on nothing but the eight bytes. -/
theorem Memory.read8?_congr {m m' : Memory} {a : Nat} (h : ∀ j, j < 8 → m.read? (a + j) = m'.read? (a + j)) :
    m.read8? a = m'.read8? a := by
  have h0 : m.read? a = m'.read? a := h 0 (by decide)
  simp only [Memory.read8?, h0, h 1 (by decide), h 2 (by decide), h 3 (by decide), h 4 (by decide), h 5 (by decide), h 6 (by decide),
    h 7 (by decide)]

/-! ### The accept step never stops -/

/-- The accept step of every command answers a next state in every state. -/
theorem exec_next (i : Instr) (s : State) : ∃ t, exec i s = .next t := by
  rw [exec_eq_accept]
  unfold accept
  split
  · exact ⟨_, rfl⟩
  · split_ifs <;> exact ⟨_, rfl⟩

/-- The turn of an `IDLE` context answers a next state in every state. -/
theorem acceptStep_next (c : Nat) (s : State) : ∃ t, acceptStep c s = .next t := by
  unfold acceptStep
  split
  · exact ⟨_, rfl⟩
  · split
    · exact exec_next _ s
    · exact ⟨_, rfl⟩

end Sys2Proof.Machine

namespace Sys2Proof

open Machine

/-! ### The bytes that are left to a command in progress -/

/-- A context with a command in progress is busy, and `JobInv` holds of that command. -/
theorem ContextInv.of_job {aw : Nat} {m : Memory} {n : Nat} {x : Context} (h : ContextInv aw m n x) {i : Instr} (hj : x.job = some i) :
    x.seq ≠ .idle ∧ JobInv aw m n i x := by
  simpa only [ContextInv, hj] using h

/-- Every byte not yet consumed lies in the message. -/
theorem JobInv.inMessage {aw : Nat} {m : Memory} {n : Nat} {i : Instr} {x : Context} (h : JobInv aw m n i x) {k : Nat} (hk : k < x.rem) :
    i.addr ≤ x.ptr + k ∧ x.ptr + k < i.addr + i.len := by
  have hptr := h.ptrLt (by omega)
  have hleft := h.left
  omega

/-- The next byte, while one is left, can be read. -/
theorem JobInv.read?_next {aw : Nat} {m : Memory} {n : Nat} {i : Instr} {x : Context} (h : JobInv aw m n i x) (hr : x.rem ≠ 0) :
    ∃ b, m.read? x.ptr = some b :=
  h.readable (k := 0) (Nat.pos_of_ne_zero hr)

/-- The next eight bytes, while as many are left, can be read. -/
theorem JobInv.read8?_next {aw : Nat} {m : Memory} {n : Nat} {i : Instr} {x : Context} (h : JobInv aw m n i x) (hr : 8 ≤ x.rem) :
    ∃ w, m.read8? x.ptr = some w := by
  refine Memory.read8?_isSome fun j hj hj' => ?_
  obtain ⟨k, rfl⟩ := Nat.exists_eq_add_of_le hj
  exact h.readable (by omega)

/-- In `BS_RUN` the latched `VAR` selects a polynomial. -/
theorem JobInv.poly?_var {aw : Nat} {m : Memory} {n : Nat} {i : Instr} {x : Context} (h : JobInv aw m n i x) (hq : x.seq = .bsRun) :
    ∃ p, poly? x.var = some p := by
  obtain ⟨tag, init, p, hi⟩ := h.isBitSerial hq
  obtain ⟨-, hvar, -⟩ := h.bitSerial tag init p hi
  exact ⟨p, hvar ▸ (loadOf_bitSerial hi x).2⟩

/-! ### No turn stops -/

/-- From a state with the invariant every turn answers a next state: the reads of the three reading steps are inside the message, `VAR`
selects a polynomial, and a fold step finds `PTR` aligned. -/
theorem Inv.turn_next {s : State} (h : Inv s) (c : Nat) : ∃ t, turn c s = .next t := by
  cases hx : s.ctx? c with
  | none => exact ⟨s, by simp only [turn, hx]⟩
  | some x =>
    have hjob := h.job hx
    cases hq : x.seq with
    | idle => simpa only [turn, hx, hq] using acceptStep_next c s
    | bsRun =>
      obtain ⟨i, -, hinv⟩ := hjob (by simp [hq])
      by_cases hr : x.rem = 0
      · exact ⟨_, turn_finishBitSerial hx hq hr⟩
      · obtain ⟨b, hb⟩ := hinv.read?_next hr
        obtain ⟨p, hp⟩ := hinv.poly?_var hq
        exact ⟨_, turn_absorb hx hq hr hb hp⟩
    | cGuard => exact ⟨guardStep c x s, by simp only [turn, hx, hq]⟩
    | cBuild => exact ⟨buildStep c x s, by simp only [turn, hx, hq]⟩
    | cHead =>
      obtain ⟨i, -, hinv⟩ := hjob (by simp [hq])
      by_cases hr : x.ptr % 8 = 0 ∨ x.rem = 0
      · exact ⟨_, turn_leaveHead hx hq hr⟩
      · obtain ⟨ha, hr⟩ := not_or.1 hr
        obtain ⟨b, hb⟩ := hinv.read?_next hr
        exact ⟨_, turn_headByte hx hq ha hr hb⟩
    | cFold =>
      obtain ⟨i, -, hinv⟩ := hjob (by simp [hq])
      by_cases hr : x.rem < 8
      · exact ⟨_, turn_leaveFold hx hq hr⟩
      · have hr8 : 8 ≤ x.rem := Nat.le_of_not_lt hr
        obtain ⟨w, hw⟩ := hinv.read8?_next hr8
        exact ⟨_, turn_fold hx hq hr8 ((hinv.foldAligned hq).resolve_left (by omega)) hw⟩
    | cTail =>
      obtain ⟨i, -, hinv⟩ := hjob (by simp [hq])
      by_cases hr : x.rem = 0
      · exact ⟨_, turn_finishCrc32c hx hq hr⟩
      · obtain ⟨b, hb⟩ := hinv.read?_next hr
        exact ⟨_, turn_tailByte hx hq hr hb⟩

/-! ### A turn over another memory that holds the same message -/

/-- A turn of a context with a command in progress does the same over any memory that agrees on the message. -/
theorem Inv.turn_withMem {s t : State} (h : Inv s) {c : Nat} {x : Context} (hx : s.ctx? c = some x) {i : Instr} (hj : x.job = some i)
    {m : Memory} (hm : ∀ a, i.addr ≤ a → a < i.addr + i.len → m.read? a = s.mem.read? a) (ht : TurnTo c s t) :
    turn c { s with mem := m } = .next { t with mem := m } := by
  obtain ⟨hbusy, hinv⟩ := (h.jobs c x hx).of_job hj
  have hread : ∀ k, k < x.rem → m.read? (x.ptr + k) = s.mem.read? (x.ptr + k) := fun k hk =>
    hm _ (hinv.inMessage hk).1 (hinv.inMessage hk).2
  have hown : ∀ y, s.ctx? c = some y → y = x := fun y hy => Option.some.inj (hy.symm.trans hx)
  have hx' : ({ s with mem := m } : State).ctx? c = some x := hx
  cases ht with
  | absent hn => simp [hx] at hn
  | noCommand y hy hq | illegal y hy hq | badOperands y hy hq | taken y hy hq => exact absurd (hown y hy ▸ hq) hbusy
  | absorb y hy hq hr b hb p hp =>
    cases hown y hy
    exact turn_absorb hx' hq hr ((hread 0 (Nat.pos_of_ne_zero hr)).trans hb) hp
  | finishBitSerial y hy hq hr => exact turn_finishBitSerial (hown y hy ▸ hx') hq hr
  | guardWon y hy hq hg => exact turn_guardWon (hown y hy ▸ hx') hq hg
  | guardPassed y hy hq hg => exact turn_guardPassed (hown y hy ▸ hx') hq hg
  | held y hy hq hg => exact turn_held (hown y hy ▸ hx') hq hg
  | entryWrite y hy hq hi => exact turn_entryWrite (hown y hy ▸ hx') hq hi
  | publish y hy hq hi => exact turn_publish (hown y hy ▸ hx') hq hi
  | overrun y hy hq hi => exact absurd h.index (Nat.not_le_of_lt hi)
  | byte y hy hq hr b hb =>
    cases hown y hy
    have hb' : m.read? x.ptr = some b := (hread 0 (Nat.pos_of_ne_zero hr)).trans hb
    obtain ⟨hq, ha⟩ | hq := hq
    · exact turn_headByte hx' hq ha hr hb'
    · exact turn_tailByte hx' hq hr hb'
  | leaveHead y hy hq hr => exact turn_leaveHead (hown y hy ▸ hx') hq hr
  | fold y hy hq hr ha w hw =>
    cases hown y hy
    exact turn_fold hx' hq hr ha ((Memory.read8?_congr fun k hk => hread k (by omega)).trans hw)
  | leaveFold y hy hq hr => exact turn_leaveFold (hown y hy ▸ hx') hq hr
  | finishCrc32c y hy hq hr => exact turn_finishCrc32c (hown y hy ▸ hx') hq hr

/-! ### The obligations -/

/-- Settles O51: a turn by `Inv.turn_next`; of the other events only a host write has a condition, which is the refusal of log 16. -/
theorem nothingStopsTheMachine : Obligations.NothingStopsTheMachine := by
  intro s h
  cases he : s.events with
  | nil =>
    have hinv : Inv { s with freeCtr := s.freeCtr + 1 } := h.congr rfl rfl rfl rfl rfl rfl fun _ hk => hk
    rw [step_nil he]
    exact .inl (hinv.turn_next _)
  | cons e es =>
    have hinv : Inv { s with events := es } := h.congr rfl rfl rfl rfl rfl rfl fun _ hk => hk
    cases e with
    | turn c => exact .inl (step_cons he ▸ hinv.turn_next c)
    | present k => exact .inl ⟨_, step_cons he⟩
    | hostWrite a b =>
      rw [step_hostWrite he]
      by_cases hf : s.inFlight a = true
      · exact .inr ⟨a, b, es, rfl, hf, if_pos hf⟩
      · exact .inl ⟨_, if_neg hf⟩
    | reset => exact .inl ⟨_, step_cons he⟩

/-- Settles O45: the turn reaches a next state, and does the same over the other memory. -/
theorem noByteOutsideTheMessageMatters : Obligations.NoByteOutsideTheMessageMatters := by
  intro s c x i m h hx hj hm
  obtain ⟨t, ht⟩ := h.turn_next c
  rw [h.turn_withMem hx hj hm (turn_cases ht), ht]
  rfl

/-- Settles O43: the bytes of the word one by one, and eight readable bytes make a readable word. -/
theorem eightByteReadIsLittleEndian : Obligations.EightByteReadIsLittleEndian := by
  intro m a
  refine ⟨fun w hw i hi => Memory.read?_of_read8? hw hi, fun hv => Memory.read8?_isSome fun j hj hj' => ?_⟩
  obtain ⟨k, rfl⟩ := Nat.exists_eq_add_of_le hj
  exact Option.isSome_iff_exists.1 (hv k (by omega))

end Sys2Proof
end

section
/-! Proofs of the statements about the encoding and the accept step: decode and encode agree, the reserved opcodes, what the accept step of
each class loads, the command that waits, and that every answer is the result of the command it answers, one for each command. -/

namespace Sys2Proof

open Machine

/-! ### The decoder and the encoder -/

/-- The seven legal values of `OP` (R55). -/
def opcodes : List (BitVec 8) := [0x00#8, 0x01#8, 0x02#8, 0x10#8, 0x11#8, 0x12#8, 0x20#8]

theorem decode_encode (i : Instr) : decode (encode i) = .ok i := by
  cases i <;> rfl

/-- Everything the decoder refuses: a command whose `OP` is not one of the seven, with that `OP` in the answer. -/
theorem decode_eq_error_iff (k : Command) (e : DecodeError) : decode k = .error e ↔ k.op ∉ opcodes ∧ e = .illegalCommand k.op := by
  constructor
  · intro h
    unfold decode at h
    split_ifs at h
    cases h
    exact ⟨by simp [opcodes, *], rfl⟩
  · rintro ⟨h, rfl⟩
    simp only [opcodes, List.mem_cons, List.not_mem_nil, not_or] at h
    simp only [decode, h, if_false]

/-- A legal `OP` decodes. -/
theorem decode_ok_of_mem {k : Command} (h : k.op ∈ opcodes) : ∃ i, decode k = .ok i := by
  cases hd : decode k with
  | ok i => exact ⟨i, rfl⟩
  | error e => exact absurd h ((decode_eq_error_iff k e).1 hd).1

/-- The decoder does not look at `ARG` of a class 0 command (R54). -/
theorem decode_setArg {k : Command} (h : opClass k.op = 0#4) (a : Word) : decode { k with arg := a } = decode k := by
  have hne : ∀ op : BitVec 8, opClass op ≠ 0#4 → k.op ≠ op := fun op hop heq => hop (heq ▸ h)
  simp only [decode, hne 0x10#8 (by decide), hne 0x11#8 (by decide), hne 0x12#8 (by decide), hne 0x20#8 (by decide), if_false]

/-- Encoding what the decoder read gives the command back, with `ARG` of class 0 written as 0 (R60). -/
theorem encode_of_decode {k : Command} {i : Instr} (h : decode k = .ok i) :
    encode i = if opClass k.op = 0#4 then { k with arg := 0#32 } else k := by
  obtain ⟨ctx, op, arg, addr, len⟩ := k
  unfold decode at h
  split_ifs at h
  all_goals cases h
  -- `hop` is the branch taken: `OP` is one of the seven values.
  all_goals
    rename_i hop
    dsimp only at hop ⊢
    subst hop
    simp [encode, opClass]

/-! ### The reserved values of `OP` -/

/-- The values that are no opcode, by the fields of R51 and R53: the fields are digits of the value, so this is about numbers. -/
theorem not_mem_opcodes_iff (op : BitVec 8) : op ∉ opcodes ↔
    3 ≤ (opClass op).toNat ∨ opZero op ≠ 0#2 ∨ ((opClass op).toNat ≤ 1 ∧ opTag op = 3#2) ∨ (opClass op = 2#4 ∧ opTag op ≠ 0#2) := by
  have hlt := op.isLt
  have hclass : (opClass op).toNat = op.toNat / 16 := by
    simp only [opClass, BitVec.extractLsb'_toNat, Nat.shiftRight_eq_div_pow]
    omega
  have hzero : (opZero op).toNat = op.toNat / 4 % 4 := by
    simp [opZero, BitVec.extractLsb'_toNat, Nat.shiftRight_eq_div_pow]
  have htag : (opTag op).toNat = op.toNat % 4 := by
    simp [opTag, BitVec.extractLsb'_toNat]
  simp only [opcodes, List.mem_cons, List.not_mem_nil, or_false, ← BitVec.toNat_inj, hclass, hzero, htag, BitVec.toNat_ofNat,
    Nat.reducePow, Nat.reduceMod, ne_eq]
  omega

/-! ### Command words -/

/-- The command of a word, where one is decoded from it. -/
theorem decode_of_decodeWord {aw nbits w : Nat} {i : Instr} (h : decodeWord aw nbits w = some i) :
    decode (commandOfWord aw nbits w) = .ok i := by
  unfold decodeWord at h
  split at h
  next j hj => rw [hj, Option.some.inj h]
  next => cases h

/-- A word decodes to nothing exactly when its low eight bits are no opcode. -/
theorem decodeWord_eq_none_iff (aw nbits w : Nat) : decodeWord aw nbits w = none ↔ (commandOfWord aw nbits w).op ∉ opcodes := by
  constructor
  · intro h hmem
    obtain ⟨i, hi⟩ := decode_ok_of_mem hmem
    simp [decodeWord_of_eq rfl hi] at h
  · intro h
    simp only [decodeWord, (decode_eq_error_iff _ _).2 ⟨h, rfl⟩]

/-- The command of a word of eight bits: nothing but an `OP`. -/
theorem commandOfWord_opcode (aw : Nat) {o : Nat} (h : o < 256) :
    commandOfWord aw 8 o = { ctx := 0, op := BitVec.ofNat 8 o, arg := 0#32, addr := 0, len := 0 } := by
  have harg : o / 2 ^ 8 = 0 := Nat.div_eq_of_lt h
  have haddr : o / 2 ^ 40 = 0 := Nat.div_eq_of_lt (h.trans (by decide))
  have hlen : o / 2 ^ (40 + aw) = 0 := by rw [Nat.pow_add, ← Nat.div_div_eq_div_mul, haddr, Nat.zero_div]
  simp only [commandOfWord, Nat.mod_eq_of_lt (show o < 2 ^ 8 from h), harg, haddr, hlen, Nat.zero_mod]

/-- What an eight-bit word decodes to. -/
theorem decodeTableWord_opcode {o : Nat} (h : o < 256) {i : Instr}
    (hd : decode { ctx := 0, op := BitVec.ofNat 8 o, arg := 0#32, addr := 0, len := 0 } = .ok i) : decodeTableWord 8 o = some i :=
  decodeWord_of_eq (commandOfWord_opcode _ h) hd

/-- An eight-bit word decodes to nothing exactly when it is no opcode. -/
theorem decodeTableWord_eq_none_iff {o : Nat} (h : o < 256) : decodeTableWord 8 o = none ↔ BitVec.ofNat 8 o ∉ opcodes := by
  rw [decodeTableWord, decodeWord_eq_none_iff, commandOfWord_opcode _ h]

end Sys2Proof

namespace Sys2Proof.Machine

/-! ### The accept step, forward -/

/-- An `IDLE` context takes a command with good operands: the command leaves the port and the context is loaded. -/
theorem exec_taken {i : Instr} {s : State} {x : Context} (hx : s.ctx? i.ctx = some x) (hq : x.seq = .idle)
    (hok : ¬ BadRange s.aw s.mem i.addr i.len) :
    exec i s = .next { s with port := s.port.eraseP fun k => k.ctx == i.ctx, ctxs := s.ctxs.set i.ctx (loadOf i x) } :=
  (exec_eq_accept i s).trans (accept_taken hx hq hok)

/-- The turn of an `IDLE` context runs the command it would take. -/
theorem turn_exec {s : State} {c : Nat} {x : Context} {k : Command} {i : Instr} (hx : s.ctx? c = some x) (hq : x.seq = .idle)
    (hk : s.nextCommand c = some k) (hi : decode k = .ok i) : turn c s = exec i s := by
  simp only [turn, hx, hq, acceptStep, hk, hi]

/-- With a context 0, `withCommandNext` sets it `IDLE`, puts the command first at the port and adds the turn that takes it. -/
theorem State.withCommandNext_eq {s : State} {x : Context} (hx : s.ctx? 0 = some x) (k : Command) :
    s.withCommandNext k =
      { s with ctxs := s.ctxs.set 0 { x with seq := .idle, job := none }, port := k :: s.port, events := .turn 0 :: s.events } := by
  have hx0 : s.ctxs[0]? = some x := hx
  simp [State.withCommandNext, List.modify_eq_set_getElem?, hx0]

/-! ### The ports -/

/-- The command a context would take leaves the port one shorter. -/
theorem State.length_dropCommand {s : State} {c : Nat} {k : Command} (h : s.nextCommand c = some k) :
    (s.dropCommand c).port.length + 1 = s.port.length := by
  obtain ⟨hctx, hmem⟩ := nextCommand_ctx h
  exact List.length_eraseP_add_one hmem (by simpa using hctx)

/-- A turn that adds an answer is a finish step of the context that is answered, and returns its working register. -/
theorem TurnTo.answer_cases {s t : State} {c n : Nat} {v : Word} (h : TurnTo n s t)
    (ho : t.outbox = s.outbox ++ [{ ctx := c, resp := .ok v }]) :
    ∃ x, s.ctx? c = some x ∧ x.rem = 0 ∧ ((x.seq = .bsRun ∧ v = x.r) ∨ (x.seq = .cTail ∧ v = x.c ^^^ ones)) := by
  cases h with
  | finishBitSerial x hx hq hr =>
    obtain ⟨rfl, rfl⟩ : n = c ∧ x.r = v := by simpa using ho
    exact ⟨x, hx, hr, .inl ⟨hq, rfl⟩⟩
  | finishCrc32c x hx hq hr =>
    obtain ⟨rfl, rfl⟩ : n = c ∧ x.c ^^^ ones = v := by simpa using ho
    exact ⟨x, hx, hr, .inr ⟨hq, rfl⟩⟩
  | _ => simp at ho

/-! ### The function of `C32C.UPDATE` is the byte-wise form -/

/-- The head loop followed by byte steps over what it leaves is byte steps over everything. -/
theorem headLoop_foldl (a : Nat) (c : Word) (bs : List Byte) :
    (headLoop a c bs).2.foldl (cbyte tabAt) (headLoop a c bs).1 = bs.foldl (cbyte tabAt) c := by
  induction bs generalizing a c with
  | nil => rfl
  | cons b bs ih =>
    unfold headLoop
    split
    · rfl
    · exact ih _ _

/-- A fold step is byte steps over the eight bytes of its word (R128). -/
theorem cfold_le64 (c : Word) (b0 b1 b2 b3 b4 b5 b6 b7 : Byte) :
    cfold tabAt c (le64 b0 b1 b2 b3 b4 b5 b6 b7) = [b0, b1, b2, b3, b4, b5, b6, b7].foldl (cbyte tabAt) c := by
  obtain ⟨h0, h1, h2, h3, h4, h5, h6, h7⟩ := le64_bytes b0 b1 b2 b3 b4 b5 b6 b7
  rw [cfold_tabAt, h0, h1, h2, h3, h4, h5, h6, h7]

/-- The fold loop followed by byte steps over what it leaves is byte steps over everything. -/
theorem foldLoop_foldl (c : Word) (bs : List Byte) :
    (foldLoop c bs).2.foldl (cbyte tabAt) (foldLoop c bs).1 = bs.foldl (cbyte tabAt) c := by
  induction c, bs using foldLoop.induct with
  | case1 c b0 b1 b2 b3 b4 b5 b6 b7 bs ih =>
    rw [foldLoop, ih, cfold_le64]
    rfl
  | case2 c bs hshort => rw [foldLoop]; exact hshort

/-- The function of `C32C.UPDATE` at any address is its byte-wise form (R127). -/
theorem c32c_eq_bytewise (run : Word) (a : Nat) (bs : List Byte) : c32c run a bs = c32cBytewise run bs := by
  simp only [c32c, c32cBytewise, foldLoop_foldl, headLoop_foldl]

end Sys2Proof.Machine

namespace Sys2Proof

open Machine

/-! ### The register of a command with no byte left is its result -/

/-- The result of a bit-serial command. -/
theorem Instr.result_of_bitSerial {i : Instr} {tag : BitVec 2} {init p : Word} (h : i.bitSerial? = some (tag, init, p)) (m : Memory) :
    i.result m = bscrc init p (i.msg m) := by
  cases i <;> cases h <;> rfl

/-- With no byte left the bytes consumed are the message. -/
theorem consumed_of_rem_zero {i : Instr} {x : Context} (h : x.rem = 0) : consumed i x = i.len := by
  simp [consumed, h]

/-- What the bit-serial finish step returns (R77). -/
theorem JobInv.bitSerial_result {aw : Nat} {m : Memory} {n : Nat} {i : Instr} {x : Context} (h : JobInv aw m n i x) (hq : x.seq = .bsRun)
    (hr : x.rem = 0) : x.r = i.result m := by
  obtain ⟨tag, init, p, hi⟩ := h.isBitSerial hq
  obtain ⟨-, -, hcrc⟩ := h.bitSerial tag init p hi
  rw [hcrc, consumed_of_rem_zero hr, Instr.result_of_bitSerial hi, Instr.msg]

/-- What the CRC-32C finish step returns (R125). -/
theorem JobInv.tableDriven_result {aw : Nat} {m : Memory} {n : Nat} {i : Instr} {x : Context} (h : JobInv aw m n i x)
    (hq : x.seq ≠ .bsRun) (hr : x.rem = 0) : x.c ^^^ ones = i.result m := by
  obtain ⟨ctx, arg, addr, len, rfl⟩ := h.isTableDriven hq
  obtain ⟨-, hcrc⟩ := h.tableDriven ctx arg addr len rfl
  rw [hcrc, consumed_of_rem_zero hr]
  exact (c32c_eq_bytewise arg addr _).symm

/-! ### Counting commands -/

/-- The commands in progress after a context was written: the one it had is replaced by the one it has now. -/
theorem jobsInProgress_setCtx {s : State} {c : Nat} {x : Context} (hx : s.ctx? c = some x) (y : Context) :
    jobsInProgress (s.setCtx c y) + x.job.isSome.toNat = jobsInProgress s + y.job.isSome.toNat := by
  obtain ⟨hc, hget⟩ := List.getElem?_eq_some_iff.1 hx
  have hpos : x.job.isSome = true → 0 < jobsInProgress s := fun hj =>
    List.countP_pos_iff.2 ⟨x, List.mem_of_getElem? hx, hj⟩
  have hset : jobsInProgress (s.setCtx c y) =
      jobsInProgress s - (if x.job.isSome then 1 else 0) + if y.job.isSome then 1 else 0 := by
    rw [jobsInProgress, State.setCtx_ctxs, List.countP_set hc, hget]
    rfl
  rw [hset]
  cases hj : x.job with
  | none => cases y.job <;> simp
  | some i =>
    have := hpos (by rw [hj]; rfl)
    cases y.job <;> simp <;> omega

/-- With the invariant an `IDLE` context has no command in progress. -/
theorem Inv.job_eq_none {s : State} (h : Inv s) {c : Nat} {x : Context} (hx : s.ctx? c = some x) (hq : x.seq = .idle) : x.job = none := by
  cases hj : x.job with
  | none => rfl
  | some i => exact absurd hq ((h.jobs c x hx).of_job hj).1

/-- Responses returned, commands in progress and commands at the port: a command that waits, runs or is answered counts
once. -/
def commandCount (s : State) : Nat := s.outbox.length + jobsInProgress s + s.port.length

/-- A context that keeps its command keeps the count. -/
theorem commandCount_setCtx_same {s : State} {c : Nat} {x y : Context} (hx : s.ctx? c = some x) (hj : y.job = x.job) :
    commandCount (s.setCtx c y) = commandCount s := by
  have hjobs := jobsInProgress_setCtx hx y
  rw [hj] at hjobs
  simp only [commandCount, State.setCtx_outbox, State.setCtx_port, Nat.add_right_cancel hjobs]

/-- A refusal makes one response of one command at the port. -/
theorem commandCount_raise {s : State} {c : Nat} {k : Command} (hk : s.nextCommand c = some k) (e : ErrCode) :
    commandCount (s.raise c e) = commandCount s := by
  have hport : (s.raise c e).port.length + 1 = s.port.length := State.length_dropCommand hk
  have hjobs : jobsInProgress (s.raise c e) = jobsInProgress s := rfl
  simp only [commandCount, State.raise_outbox, List.length_append, List.length_singleton]
  omega

/-- An accept step makes one command in progress of one command at the port. -/
theorem Inv.commandCount_taken {s : State} (h : Inv s) {c : Nat} {x : Context} (hx : s.ctx? c = some x) (hq : x.seq = .idle) {k : Command}
    (hk : s.nextCommand c = some k) (i : Instr) : commandCount ((s.dropCommand c).setCtx c (loadOf i x)) = commandCount s := by
  have hport := State.length_dropCommand hk
  have hdrop : jobsInProgress (s.dropCommand c) = jobsInProgress s := rfl
  have hjobs := jobsInProgress_setCtx (s := s.dropCommand c) hx (loadOf i x)
  simp only [h.job_eq_none hx hq, loadOf_job, Option.isSome_some, Option.isSome_none, Bool.toNat_true, Bool.toNat_false] at hjobs
  simp only [commandCount, State.setCtx_outbox, State.setCtx_port, State.dropCommand_outbox]
  omega

/-- A finish step makes one response of one command in progress. -/
theorem Inv.commandCount_finish {s : State} (h : Inv s) {c : Nat} {x : Context} (hx : s.ctx? c = some x) (hq : x.seq ≠ .idle)
    (r : Response) : commandCount ((s.setCtx c { x with seq := .idle, job := none }).respond c r) = commandCount s := by
  obtain ⟨i, hj, -⟩ := h.job hx hq
  have hjobs := jobsInProgress_setCtx hx { x with seq := .idle, job := none }
  have hrespond : ∀ u : State, jobsInProgress (u.respond c r) = jobsInProgress u := fun _ => rfl
  simp only [hj, Option.isSome_some, Option.isSome_none, Bool.toNat_true, Bool.toNat_false] at hjobs
  simp only [commandCount, hrespond, State.respond_outbox, State.respond_port, State.setCtx_outbox, State.setCtx_port, List.length_append,
    List.length_singleton]
  omega

/-! ### The obligations about the encoding -/

/-- Settles O1: the seven encodings decode, and through one number the fields come back by `commandOfWord_wordOfCommand`. -/
theorem encodeThenDecodeIsIdentity : Obligations.EncodeThenDecodeIsIdentity := by
  intro i
  refine ⟨decode_encode i, fun aw hctx hfits => ?_⟩
  obtain ⟨hc, ha, hl⟩ := decode_operands (decode_encode i)
  rw [hc] at hctx
  rw [ha, hl] at hfits
  exact decodeWord_of_eq (commandOfWord_wordOfCommand aw (encode i) hctx hfits) (decode_encode i)

/-- Settles O2: the encoding is the command with `ARG` of class 0 cleared, and there the decoder ignores `ARG`. -/
theorem decodeDropsOnlyArgOfClassBs : Obligations.DecodeDropsOnlyArgOfClassBs := by
  intro k i h
  rw [encode_of_decode h]
  by_cases hc : opClass k.op = 0#4
  · rw [if_pos hc]
    exact ⟨rfl, rfl, rfl, rfl, absurd hc, fun _ a => (decode_setArg hc a).trans h⟩
  · rw [if_neg hc]
    exact ⟨rfl, rfl, rfl, rfl, fun _ => rfl, fun h0 => absurd h0 hc⟩

/-- Settles O3: the decoder refuses what is no opcode, which the fields of `OP` show; 249 of the 256 values are none. -/
theorem reservedOpcodesAreExactlyTheIllegalOnes : Obligations.ReservedOpcodesAreExactlyTheIllegalOnes := by
  refine ⟨fun k => ?_, ?_⟩
  · rw [decode_eq_error_iff, ← not_mem_opcodes_iff]
    exact and_iff_left rfl
  · have hnone : ∀ o ∈ List.range 256, decide (decodeTableWord 8 o = none) = decide (BitVec.ofNat 8 o ∉ opcodes) := fun o ho =>
      decide_eq_decide.2 (decodeTableWord_eq_none_iff (List.mem_range.1 ho))
    rw [List.filter_congr hnone]
    decide +kernel

/-- Settles O4: each word is the `OP` of a command with no operands. -/
theorem opcodeTableWordsDecode : Obligations.OpcodeTableWordsDecode :=
  ⟨decodeTableWord_opcode (by decide) rfl, decodeTableWord_opcode (by decide) rfl, decodeTableWord_opcode (by decide) rfl,
    decodeTableWord_opcode (by decide) rfl, decodeTableWord_opcode (by decide) rfl, decodeTableWord_opcode (by decide) rfl,
    decodeTableWord_opcode (by decide) rfl⟩

/-! ### The obligations about the accept step -/

/-- Settles O5: a listed turn is the step, and the turn of an `IDLE` context is `exec` of its command. -/
theorem stepRunsTheDecodedCommand : Obligations.StepRunsTheDecodedCommand := by
  intro s es c x k i he hx hq hk hi
  rw [step_cons he]
  exact turn_exec hx hq hk hi

/-- Settles O6: `withFetchWord` makes a state as `stepRunsTheDecodedCommand` wants it. -/
theorem fetchWordIsRunByTheNextStep : Obligations.FetchWordIsRunByTheNextStep := by
  intro s x nbits w i hx hw
  rw [State.withFetchWord, State.withCommandNext_eq hx]
  exact stepRunsTheDecodedCommand _ s.events 0 { x with seq := .idle, job := none } (commandOfWord s.aw nbits w) i rfl
    (State.ctx?_setCtx_same hx) rfl rfl (decode_of_decodeWord hw)

/-- Settles O9: `exec_taken`, with what each of the three commands loads. -/
theorem classBsAcceptLoadsTheFixedInitialValue : Obligations.ClassBsAcceptLoadsTheFixedInitialValue :=
  fun _ c _ addr len hx hq hok =>
    ⟨exec_taken (i := .bsMpeg2 c addr len) hx hq hok, exec_taken (i := .bsXfer c addr len) hx hq hok,
      exec_taken (i := .bsAixm c addr len) hx hq hok⟩

/-- Settles O10: `exec_taken`, with what each of the three commands loads. -/
theorem classBsiAcceptLoadsTheArgument : Obligations.ClassBsiAcceptLoadsTheArgument :=
  fun _ c _ arg addr len hx hq hok =>
    ⟨exec_taken (i := .bsiMpeg2 c arg addr len) hx hq hok, exec_taken (i := .bsiXfer c arg addr len) hx hq hok,
      exec_taken (i := .bsiAixm c arg addr len) hx hq hok⟩

/-- Settles O11: `exec_taken`, with what the command loads. -/
theorem crc32cAcceptLoadsTheComplement : Obligations.Crc32cAcceptLoadsTheComplement :=
  fun _ c _ arg addr len hx hq hok => ⟨exec_taken (i := .c32cUpdate c arg addr len) hx hq hok, BitVec.zero_xor⟩

/-- Settles O12: every command's accept step is `accept`, which does nothing for a busy context. -/
theorem busyContextLeavesTheCommandWaiting : Obligations.BusyContextLeavesTheCommandWaiting :=
  fun i s _ hx hq => (exec_eq_accept i s).trans (accept_busy hx hq)

/-- Settles O59: what joins the port is the command as its fields carry it. -/
theorem presentedCommandWaitsAtThePort : Obligations.PresentedCommandWaitsAtThePort :=
  fun s k _ he =>
    ⟨Command.carried s.aw k, step_cons he, Command.carried_fits s.aw k, rfl, rfl, rfl, Command.carried_of_fits⟩

/-! ### The obligations about the responses -/

/-- Settles O52: an answer comes from a finish step, and there the invariant has the working register at the result. -/
theorem everyAnswerIsItsCommandsResult : Obligations.EveryAnswerIsItsCommandsResult := by
  intro s t c v hs h ho
  obtain ⟨es, n, u, rfl, ⟨c', ht, -⟩ | ⟨k, -, rfl⟩ | ⟨a, b, -, -, rfl⟩ | ⟨-, rfl⟩⟩ := step_cases h
  · obtain ⟨x, hx, hr, ⟨hq, rfl⟩ | ⟨hq, rfl⟩⟩ := ht.answer_cases ho
    · obtain ⟨i, hj, hinv⟩ := hs.job hx (by simp [hq])
      exact ⟨x, i, hx, hj, hinv.bitSerial_result hq hr⟩
    · obtain ⟨i, hj, hinv⟩ := hs.job hx (by simp [hq])
      exact ⟨x, i, hx, hj, hinv.tableDriven_result (by simp [hq]) hr⟩
  · simp at ho
  · simp at ho
  · simp at ho

/-- Settles O54: a refusal moves a command from the port to the responses, an accept step moves it to its context, a finish step from there
to the responses, and every other turn leaves all three counts alone. -/
theorem oneResponseForEachCommand : Obligations.OneResponseForEachCommand := by
  intro s t c hs h
  change commandCount t = commandCount s
  cases turn_cases h with
  | absent | noCommand | held | overrun | entryWrite => rfl
  | illegal x hx hq k hk | badOperands x hx hq k hk => exact commandCount_raise hk _
  | taken x hx hq k hk i => exact hs.commandCount_taken hx hq hk i
  | absorb x hx | byte x hx | fold x hx | guardPassed x hx | leaveHead x hx | leaveFold x hx => exact commandCount_setCtx_same hx rfl
  | guardWon x hx => exact commandCount_setCtx_same (s := { s with tblState := .building, tblIdx := 0#12 }) hx rfl
  | publish x hx => exact commandCount_setCtx_same (s := { s with tblState := .ready }) hx rfl
  | finishBitSerial x hx hq | finishCrc32c x hx hq => exact hs.commandCount_finish hx (by simp [hq]) _

end Sys2Proof
end

section
/-! Proofs of the statements about the bit-serial unit: the bit step and its serial form, the two steps of `BS_RUN`, a command run from its
accept step to its answer, and what a result depends on. -/

namespace Sys2Proof.Machine

/-! ### The bit step and the serial form -/

/-- The bit step with the shift outside the test (R71). -/
theorem bitStep_eq (r p : Word) : bitStep r p = (r <<< 1) ^^^ (if r.msb then p else 0#32) := by
  unfold bitStep
  cases r.msb <;> simp

/-- The serial step with the shift outside the test (R87). -/
theorem serialBit_eq (p r : Word) (d : Bool) : serialBit p r d = (r <<< 1) ^^^ (if r.msb ^^ d then p else 0#32) := by
  unfold serialBit
  cases r.msb ^^ d <;> simp

/-- A byte in the top eight bits of the register, where `absorb` puts it (R72). -/
def topByte (b : Byte) : Word := b.setWidth 32 <<< 24

theorem msb_topByte (b : Byte) : (topByte b).msb = b.msb := by
  simp [topByte, BitVec.msb_eq_getLsbD_last]

theorem topByte_shiftLeft (b : Byte) : topByte b <<< 1 = topByte (b <<< 1) := by
  apply BitVec.eq_of_toNat_eq
  have := b.isLt
  simp [topByte, Nat.shiftLeft_eq]
  omega

/-- A bit step with a byte on top of the register is a serial step of the byte's bit 7; the rest of the byte moves up. -/
theorem bitStep_xor_topByte (r p : Word) (b : Byte) :
    bitStep (r ^^^ topByte b) p = serialBit p r b.msb ^^^ topByte (b <<< 1) := by
  rw [bitStep_eq, serialBit_eq, BitVec.msb_xor, msb_topByte, BitVec.shiftLeft_xor_distrib, topByte_shiftLeft, BitVec.xor_assoc,
    BitVec.xor_assoc, BitVec.xor_comm (topByte _)]

/-- `n` bit steps with a byte on top are serial steps of the byte's first `n` bits, bit 7 first. -/
theorem bitSteps_xor_topByte (n : Nat) (r p : Word) (b : Byte) :
    bitSteps n (r ^^^ topByte b) p = ((List.range n).map b.getMsbD).foldl (serialBit p) r ^^^ topByte (b <<< n) := by
  induction n generalizing r b with
  | zero => simp [bitSteps]
  | succ n ih =>
    have hbits : (List.range n).map (b <<< 1).getMsbD = (List.range n).map (b.getMsbD ∘ Nat.succ) :=
      List.map_congr_left fun k _ => BitVec.getMsbD_shiftLeft b 1
    rw [bitSteps, bitStep_xor_topByte, ih, hbits, ← BitVec.shiftLeft_add, Nat.add_comm 1 n, List.range_succ_eq_map,
      List.map_cons, List.map_map, List.foldl_cons, BitVec.msb_eq_getMsbD_zero]

/-! ### Good operands behind the first byte -/

/-- The operands behind the first byte of good ones are good; the address may have wrapped only where nothing is left. -/
theorem not_badRange_advance {aw : Nat} {m : Memory} {a n : Nat} (h : ¬ BadRange aw m a (n + 1)) : ¬ BadRange aw m (advance aw a 1) n := by
  have hsum := sum_le_of_not_badRange h n.succ_ne_zero
  rintro ⟨hn, hbad⟩
  rw [advance, Nat.mod_eq_of_lt (by omega)] at hbad
  refine h ⟨n.succ_ne_zero, ?_⟩
  rcases hbad with hlt | ⟨j, hlo, hhi, hv⟩
  · exact .inl (by omega)
  · exact .inr ⟨j, by omega, by omega, hv⟩

/-- A message with good operands is its first byte and the message behind it. -/
theorem message_eq_cons {aw : Nat} {m : Memory} {a n : Nat} (h : ¬ BadRange aw m a (n + 1)) {b : Byte} (hb : m.read? a = some b) :
    m.message a (n + 1) = b :: m.message (advance aw a 1) n := by
  have hrest : m.message (advance aw a 1) n = m.message (a + 1) n := by
    cases n with
    | zero => rfl
    | succ n =>
      have hsum := sum_le_of_not_badRange h (Nat.succ_ne_zero _)
      rw [advance, Nat.mod_eq_of_lt (by omega)]
  rw [hrest, Memory.message, hb]
  rfl

/-! ### A bit-serial command, run to its answer -/

/-- From `BS_RUN` with `n` good bytes left, `n` `ABSORB` steps and the finish step return the fold over those bytes. -/
theorem runTurns_bitSerial {s : State} {c n : Nat} {x : Context} {p : Word} (hx : s.ctx? c = some x) (hq : x.seq = .bsRun)
    (hn : x.rem = n) (hp : poly? x.var = some p) (hfit : x.ptr < 2 ^ s.aw) (hok : ¬ BadRange s.aw s.mem x.ptr n) :
    runTurns s (List.replicate (n + 1) c) = .next (finishBitSerial c
      { x with r := bscrc x.r p (s.mem.message x.ptr n), ptr := advance s.aw x.ptr n, rem := 0 } s) := by
  induction n generalizing s x with
  | zero =>
    rw [List.replicate_one, runTurns_cons [] (turn_finishBitSerial hx hq hn), runTurns_nil, advance_zero hfit, Memory.message_zero, ← hn]
    rfl
  | succ n ih =>
    obtain ⟨b, hb⟩ := read?_of_not_badRange hok (Nat.le_refl _) (by omega)
    have hturn := turn_absorb hx hq (by omega) hb hp
    have hrest := ih (State.ctx?_setCtx_same (x := { x with r := absorb x.r b p, ptr := advance s.aw x.ptr 1, rem := x.rem - 1 }) hx)
      hq (by simp [hn]) hp (advance_lt _ _ _) (not_badRange_advance hok)
    rw [List.replicate_succ, runTurns_cons _ hturn, hrest]
    simp only [State.setCtx_aw, State.setCtx_mem, advance_advance, Nat.add_comm 1 n, finishBitSerial, State.setCtx_setCtx,
      message_eq_cons hok hb]
    rfl

/-- A command presented to an `IDLE` context that no other command waits for is one that the context can take. -/
theorem canTake_present {s : State} {i : Instr} {x : Context} (hx : s.ctx? i.ctx = some x) (hq : x.seq = .idle)
    (hport : s.nextCommand i.ctx = none) (hfit : Fits s.aw i.addr i.len) (hok : ¬ BadRange s.aw s.mem i.addr i.len) :
    CanTake (s.present (encode i)) i.ctx x i where
  context := hx
  idle := hq
  command := by
    obtain ⟨hc, ha, hl⟩ := decode_operands (decode_encode i)
    have hcarried : Command.carried s.aw (encode i) = encode i := Command.carried_of_fits (by rwa [← ha, ← hl])
    refine ⟨encode i, ?_, decode_encode i⟩
    rw [State.nextCommand] at hport ⊢
    rw [State.present_port, List.find?_append, hport, hcarried]
    simp [hc]
  fits := hfit
  operands := hok

end Sys2Proof.Machine

namespace Sys2Proof

open Machine

/-! ### The obligations about the bit step -/

/-- Settles O14: a shift by one is the low 31 bits with a 0 behind them. -/
theorem bitStepShiftsAndXorsThePolynomial : Obligations.BitStepShiftsAndXorsThePolynomial := by
  refine ⟨fun r p => ?_, by decide, by decide, by decide, by decide⟩
  have hshift : r <<< 1 = (r.extractLsb' 0 31 ++ 0#1 : BitVec 32) := BitVec.shiftLeft_eq_concat_of_lt (by decide)
  rw [bitStep_eq, hshift, BitVec.msb_eq_getLsbD_last]

/-- Settles O15: `bitSteps_xor_topByte` at eight steps, which leave nothing of the byte on top. -/
theorem absorbIsTheSerialForm : Obligations.AbsorbIsTheSerialForm := by
  intro r b p
  have hempty : topByte (b <<< 8) = 0#32 := by simp [topByte, BitVec.shiftLeft_eq_zero]
  calc absorb r b p = ((List.range 8).map b.getMsbD).foldl (serialBit p) r ^^^ topByte (b <<< 8) := bitSteps_xor_topByte 8 r p b
    _ = ((List.range 8).map b.getMsbD).foldl (serialBit p) r := by rw [hempty, BitVec.xor_zero]
    _ = serialAbsorb r b p := rfl

/-! ### The obligations about the function -/

/-- Settles O16: a left fold over two pieces. -/
theorem bitSerialResumption : Obligations.BitSerialResumption := bscrc_append

/-- Settles O17: the message is the nine bytes, and over these the three folds are computed. -/
theorem bitSerialCheckValues : Obligations.BitSerialCheckValues := by
  intro m c addr hmsg
  simp only [Instr.result, Instr.msg, Instr.addr, Instr.len, hmsg]
  decide +kernel

/-- The column `result` of R55 as a function of `OP`, `ARG` and the message bytes alone. -/
def resultFrom (op : BitVec 8) (arg : Word) (bytes : List Byte) : Word :=
  match op with
  | 0x00#8 => bscrc initMpeg2 polyMpeg2 bytes
  | 0x01#8 => bscrc initXfer polyXfer bytes
  | 0x02#8 => bscrc initAixm polyAixm bytes
  | 0x10#8 => bscrc arg polyMpeg2 bytes
  | 0x11#8 => bscrc arg polyXfer bytes
  | 0x12#8 => bscrc arg polyAixm bytes
  | _ => c32cBytewise arg bytes

theorem Instr.result_eq_resultFrom (i : Instr) (m : Memory) : i.result m = resultFrom (encode i).op (encode i).arg (i.msg m) := by
  cases i with
  | c32cUpdate ctx arg addr len => exact c32c_eq_bytewise arg addr _
  | _ => rfl

/-- Settles O37: the address, the only other thing a command's result names, drops out of `C32C` in its byte-wise form. -/
theorem resultDependsOnlyOnTheMessage : Obligations.ResultDependsOnlyOnTheMessage := by
  intro i j m n hop harg hmsg
  rw [i.result_eq_resultFrom, j.result_eq_resultFrom, hop, harg, hmsg]

/-! ### The obligations about the two steps -/

/-- Settles O18: the listed turn is an `ABSORB` step, and each tag selects its polynomial. -/
theorem absorbStepConsumesOneByte : Obligations.AbsorbStepConsumesOneByte := by
  intro s es c x b p he hx hq hr hb hvar
  have hp : poly? x.var = some p := by
    rcases hvar with ⟨hv, rfl⟩ | ⟨hv, rfl⟩ | ⟨hv, rfl⟩ <;> rw [hv] <;> rfl
  rw [step_cons he]
  exact turn_absorb (s := { s with events := es }) hx hq (by omega) hb hp

/-- Settles O19: the listed turn is the finish step. -/
theorem bitSerialFinishReturnsTheRegister : Obligations.BitSerialFinishReturnsTheRegister := by
  intro s es c x he hx hq hr
  rw [step_cons he]
  exact ⟨turn_finishBitSerial (s := { s with events := es }) hx hq hr, rfl⟩

/-! ### The obligations about whole commands -/

/-- Settles O20: the accept step loads what `runTurns_bitSerial` starts from. -/
theorem bitSerialCommandAnswersItsCrc : Obligations.BitSerialCommandAnswersItsCrc := by
  intro s c x i tag init p h hi
  obtain ⟨k, hk, hd⟩ := h.command
  obtain ⟨hload, hp⟩ := loadOf_bitSerial hi x
  have hturn := turn_taken h.context h.idle hk hd h.operands
  have hrun := runTurns_bitSerial (s := (s.dropCommand c).setCtx c (loadOf i x)) (State.ctx?_setCtx_same h.context)
    (by rw [hload]) rfl (by rw [hload]; exact hp) (by rw [loadOf_ptr]; exact h.fits.addr)
    (by rw [loadOf_ptr, loadOf_rem]; exact h.operands)
  rw [loadOf_rem] at hrun
  rw [List.replicate_succ, runTurns_cons _ hturn, hrun, finishBitSerial, State.setCtx_setCtx, hload]
  rfl

/-- A bit-serial command with the given operands, presented to an `IDLE` context, answers the fold from its initial value over its message. -/
theorem present_answers {s : State} {c addr len : Nat} {x : Context} {i : Instr} {tag : BitVec 2} {init p : Word} (hx : s.ctx? c = some x)
    (hq : x.seq = .idle) (hport : s.nextCommand c = none) (hfit : Fits s.aw addr len) (hok : ¬ BadRange s.aw s.mem addr len)
    (hc : i.ctx = c) (ha : i.addr = addr) (hl : i.len = len) (hi : i.bitSerial? = some (tag, init, p)) :
    ∃ t, runTurns (s.present (encode i)) (List.replicate (len + 2) c) = .next t ∧
      t.outbox = s.outbox ++ [{ ctx := c, resp := .ok (bscrc init p (s.mem.message addr len)) }] := by
  subst hc ha hl
  exact ⟨_, bitSerialCommandAnswersItsCrc _ _ x i tag init p (canTake_present hx hq hport hfit hok) hi, rfl⟩

/-- Settles O21: the two commands have the same initial value, polynomial and operands. -/
theorem fixedAndExplicitFormsAgree : Obligations.FixedAndExplicitFormsAgree := by
  intro s c x addr len i j hx hq hport hfit hok hij
  have hsame : (i.ctx = c ∧ i.addr = addr ∧ i.len = len) ∧ (j.ctx = c ∧ j.addr = addr ∧ j.len = len) ∧
      ∃ tag init p, i.bitSerial? = some (tag, init, p) ∧ j.bitSerial? = some (tag, init, p) := by
    rcases hij with ⟨rfl, rfl⟩ | ⟨rfl, rfl⟩ | ⟨rfl, rfl⟩
    all_goals exact ⟨⟨rfl, rfl, rfl⟩, ⟨rfl, rfl, rfl⟩, _, _, _, rfl, rfl⟩
  obtain ⟨⟨hic, hia, hil⟩, ⟨hjc, hja, hjl⟩, tag, init, p, hi, hj⟩ := hsame
  obtain ⟨t, ht, hto⟩ := present_answers hx hq hport hfit hok hic hia hil hi
  obtain ⟨u, hu, huo⟩ := present_answers hx hq hport hfit hok hjc hja hjl hj
  exact ⟨t, u, _, ht, hu, hto, huo.trans hto.symm⟩

/-- Settles O22: operands with `LEN = 0` are good, and the second turn finishes with the register as it was loaded. -/
theorem bitSerialEmptyInputReturnsTheInitialValue : Obligations.BitSerialEmptyInputReturnsTheInitialValue := by
  refine ⟨fun _ _ => rfl, ?_⟩
  intro s c x k i tag init p hx hq hk hd hi hlen
  have hturn := turn_taken hx hq hk hd fun hbad => hbad.1 hlen
  have hload := (loadOf_bitSerial hi x).1
  have hfinish := turn_finishBitSerial (s := (s.dropCommand c).setCtx c (loadOf i x)) (State.ctx?_setCtx_same hx) (by rw [hload])
    (by rw [loadOf_rem, hlen])
  refine ⟨_, (runTurns_cons _ hturn).trans (runTurns_cons [] hfinish), ?_⟩
  simp [hload]

end Sys2Proof
end

section
/-! Proofs of the statements about the CRC-32C table: its values, linearity and distinctness, the guard, entry-write and publish steps, the
whole build, and the first `C32C.UPDATE`, which builds the table and then answers. -/

namespace Sys2Proof.Machine

/-! ### The reflected step loses nothing -/

/-- The reflected step with the shift outside the test (R101). -/
theorem rstep_eq (c : Word) : rstep c = (c >>> 1) ^^^ (if c.getLsbD 0 then polyC else 0#32) := by
  unfold rstep
  cases c.getLsbD 0 <;> simp

/-- The polynomial has bit 31, which the shift leaves empty, so the result shows whether the polynomial was XORed in. -/
theorem getLsbD_rstep_top (c : Word) : (rstep c).getLsbD 31 = c.getLsbD 0 := by
  have hpoly : polyC.getLsbD 31 = true := by decide
  rw [rstep_eq]
  cases c.getLsbD 0 <;> simp [hpoly]

theorem rstep_of_low_bit_zero {c : Word} (h : c.getLsbD 0 = false) : rstep c = c >>> 1 := by
  rw [rstep_eq, h]
  exact BitVec.xor_zero

theorem eq_zero_of_rstep_eq_zero {c : Word} (h : rstep c = 0#32) : c = 0#32 := by
  have hlow : c.getLsbD 0 = false := by rw [← getLsbD_rstep_top, h]; rfl
  have hshift : c >>> 1 = 0#32 := rstep_of_low_bit_zero hlow ▸ h
  apply BitVec.eq_of_getLsbD_eq
  intro i _
  cases i with
  | zero => exact hlow
  | succ i => simpa [Nat.add_comm] using congrArg (BitVec.getLsbD · i) hshift

theorem eq_zero_of_rsteps_eq_zero {n : Nat} {c : Word} (h : rsteps n c = 0#32) : c = 0#32 := by
  induction n generalizing c with
  | zero => exact h
  | succ n ih => exact eq_zero_of_rstep_eq_zero (ih h)

/-- Reflected steps over bits that are 0 only shift. -/
theorem rsteps_of_low_bits_zero {n : Nat} {c : Word} (h : ∀ i < n, c.getLsbD i = false) : rsteps n c = c >>> n := by
  induction n generalizing c with
  | zero => simp [rsteps]
  | succ n ih =>
    rw [rsteps, rstep_of_low_bit_zero (h 0 n.succ_pos), ih fun i hi => by simpa using h (1 + i) (by omega),
      ← BitVec.shiftRight_add, Nat.add_comm]

/-- The zero step is eight reflected steps of the whole register: the low byte and the rest apart, and the rest only shifts. -/
theorem zeroStep_eq_rsteps (c : Word) : zeroStep c = rsteps 8 c := by
  have hlow : ∀ i < 8, ((c >>> 8) <<< 8).getLsbD i = false := fun i hi => by simp [hi]
  have hback : (c >>> 8) <<< 8 >>> 8 = c >>> 8 := by
    apply BitVec.eq_of_getLsbD_eq
    intro i hi
    by_cases h8 : 8 + i < 32
    · simp [h8]
    · simp [h8, BitVec.getLsbD_of_ge c (8 + i) (by omega)]
  have hsplit : c = (c.setWidth 8).setWidth 32 ^^^ (c >>> 8) <<< 8 := by
    apply BitVec.eq_of_getLsbD_eq
    intro i hi
    by_cases h8 : i < 8
    · simp [hi, h8]
    · simp [hi, h8, show 8 + (i - 8) = i by omega]
  calc
    zeroStep c = rsteps 8 ((c.setWidth 8).setWidth 32) ^^^ (c >>> 8) <<< 8 >>> 8 := by rw [hback]; rfl
    _ = rsteps 8 ((c.setWidth 8).setWidth 32 ^^^ (c >>> 8) <<< 8) := by rw [rsteps_xor, rsteps_of_low_bits_zero hlow]
    _ = rsteps 8 c := by rw [← hsplit]

theorem eq_zero_of_zeroStep_eq_zero {c : Word} (h : zeroStep c = 0#32) : c = 0#32 :=
  eq_zero_of_rsteps_eq_zero (zeroStep_eq_rsteps c ▸ h)

/-! ### The rows -/

/-- Every row is linear (R104): row 0 is the zero step of the byte, and each other row the zero step of the row before. -/
theorem tab_xor (k : Nat) (a b : Byte) : tab k (a ^^^ b) = tab k a ^^^ tab k b := by
  induction k with
  | zero => simp only [tab_zero_eq, BitVec.setWidth_xor, zeroStep_xor]
  | succ k ih => simp only [tab_succ, ih, zeroStep_xor]

theorem tab_zero_byte (k : Nat) : tab k 0#8 = 0#32 := by
  have h := tab_xor k 0#8 0#8
  rwa [BitVec.xor_self, BitVec.xor_self] at h

theorem eq_zero_of_tab_eq_zero {k : Nat} {n : Byte} (h : tab k n = 0#32) : n = 0#8 := by
  induction k with
  | zero =>
    have hn : (n.setWidth 32 : Word) = 0#32 := eq_zero_of_zeroStep_eq_zero (tab_zero_eq n ▸ h)
    have hbyte := congrArg (BitVec.setWidth 8) hn
    rwa [BitVec.setWidth_setWidth_of_le _ (by decide), BitVec.setWidth_eq] at hbyte
  | succ k ih => exact ih (eq_zero_of_zeroStep_eq_zero (tab_succ k n ▸ h))

/-! ### Runs of one context -/

/-- A loop of one context: `n` turns along given states, then the turn that leaves the last of them. -/
theorem runTurns_loop {c n : Nat} (f : Nat → State) {t : State} (hloop : ∀ i < n, turn c (f i) = .next (f (i + 1)))
    (hleave : turn c (f n) = .next t) : runTurns (f 0) (List.replicate (n + 1) c) = .next t := by
  induction n generalizing f with
  | zero => rw [List.replicate_one, runTurns_cons [] hleave, runTurns_nil]
  | succ n ih =>
    rw [List.replicate_succ, runTurns_cons _ (hloop 0 n.succ_pos)]
    exact ih (fun i => f (i + 1)) (fun i hi => hloop (i + 1) (by omega)) hleave

/-! ### The build -/

/-- A full table is the finished one. -/
theorem eq_final_of_filledBelow {t : Table} (h : FilledBelow t 2048) : t = .final :=
  Table.ext_get t .final fun k n => (filledBelow_full h k n).trans (Table.get_final k n).symm

/-- The shared state once the table is built (R107). -/
def State.built (s : State) : State := { s with tblState := .ready, tblIdx := 2048#12, table := .final }

/-- From a table filled so far, the entry-write steps that are left and the publish step finish the build. -/
theorem runTurns_build {s : State} {c n : Nat} {x : Context} (hx : s.ctx? c = some x) (hq : x.seq = .cBuild)
    (hn : s.tblIdx.toNat + n = 2048) (hfilled : FilledBelow s.table s.tblIdx.toNat) :
    runTurns s (List.replicate (n + 1) c) = .next (s.built.setCtx c { x with seq := .cHead }) := by
  induction n generalizing s with
  | zero =>
    have hidx : s.tblIdx = 2048#12 := BitVec.eq_of_toNat_eq hn
    have htable : s.table = .final := eq_final_of_filledBelow (by rwa [hidx] at hfilled)
    rw [List.replicate_one, runTurns_cons [] (turn_publish hx hq hn), runTurns_nil, State.built, ← hidx, ← htable]
    rfl
  | succ n ih =>
    have hlt : s.tblIdx.toNat < 2048 := by omega
    obtain ⟨hfilled', hidx⟩ := filledBelow_entryWrite hlt hfilled
    rw [List.replicate_succ, runTurns_cons _ (turn_entryWrite hx hq hlt), ih (s := entryWrite s) hx (by omega) (by rwa [hidx])]
    rfl

/-- The context that finds `EMPTY` has the table built in 1 guard step, 2048 entry-write steps and 1 publish step. -/
theorem runTurns_guardWon {s : State} {c : Nat} {x : Context} (hx : s.ctx? c = some x) (hq : x.seq = .cGuard)
    (ht : s.tblState = .empty) :
    runTurns s (List.replicate 2050 c) = .next (s.built.setCtx c { x with seq := .cHead }) := by
  have hbuild := runTurns_build (s := { s with tblState := .building, tblIdx := 0#12 }.setCtx c { x with seq := .cBuild }) (n := 2048)
    (State.ctx?_setCtx_same (s := { s with tblState := .building, tblIdx := 0#12 }) hx) rfl rfl (filledBelow_zero _)
  rw [List.replicate_succ, runTurns_cons _ (turn_guardWon hx hq ht), hbuild]
  exact congrArg Host.Outcome.next (State.setCtx_setCtx s.built c _ _)

/-! ### The step counts of R136 -/

theorem headCount_le (a len : Nat) : headCount a len ≤ len := Nat.min_le_left _ _

/-- Before the head is over the address is misaligned. -/
theorem misaligned_of_lt_headCount {a len j : Nat} (h : j < headCount a len) : (a + j) % 8 ≠ 0 := by
  unfold headCount at h
  omega

/-- After the head the address is aligned, unless no byte is left. -/
theorem aligned_after_headCount {a len : Nat} (h : headCount a len < len) : (a + headCount a len) % 8 = 0 := by
  unfold headCount at h ⊢
  omega

/-- The fold steps leave at most seven bytes, those of the tail. -/
theorem counts_sum (a len : Nat) :
    headCount a len + 8 * foldCount a len + tailCount a len = len ∧ len < headCount a len + 8 * foldCount a len + 8 := by
  have hhead := headCount_le a len
  unfold tailCount foldCount
  omega

/-! ### `C32C.UPDATE` past the guard -/

/-- What registers `x` become, in phase `q`, once `k` message bytes are consumed on the finished table. -/
def State.fed (s : State) (x : Context) (q : Seq) (k : Nat) : Context :=
  { x with
    seq := q, c := (s.mem.message x.ptr k).foldl (cbyte tabAt) x.c, ptr := advance s.aw x.ptr k, rem := x.rem - k }

@[simp] theorem State.fed_ptr (s : State) (x : Context) (q : Seq) (k : Nat) : (s.fed x q k).ptr = advance s.aw x.ptr k := rfl
@[simp] theorem State.fed_rem (s : State) (x : Context) (q : Seq) (k : Nat) : (s.fed x q k).rem = x.rem - k := rfl

theorem State.fed_zero {s : State} {x : Context} (h : x.ptr < 2 ^ s.aw) (q : Seq) : s.fed x q 0 = { x with seq := q } := by
  rw [State.fed, advance_zero h]
  rfl

/-- Consuming `k` bytes more. -/
theorem State.fed_add (s : State) (x : Context) (q : Seq) (j k : Nat) :
    s.fed x q (j + k) = { s.fed x q j with
      c := (s.mem.message (x.ptr + j) k).foldl (cbyte tabAt) (s.fed x q j).c
      ptr := advance s.aw (s.fed x q j).ptr k
      rem := (s.fed x q j).rem - k } := by
  simp only [State.fed, Memory.message_add, List.foldl_append, advance_advance, Nat.sub_sub]

/-- With all of the message consumed the working register holds the complement of the result. -/
theorem State.fed_result {s : State} {x : Context} {arg : Word} (h : x.c = arg ^^^ ones) (q : Seq) :
    (s.fed x q x.rem).c ^^^ ones = c32c arg x.ptr (s.mem.message x.ptr x.rem) := by
  rw [c32c_eq_bytewise, c32cBytewise, ← h]
  rfl

section PastTheGuard
/-! The steps of a context past the guard, over a finished table and a message with good operands. -/

variable {s : State} {c j : Nat} {x y : Context} (hx : s.ctx? c = some y) (htable : s.table.get = tabAt)
  (hok : ¬ BadRange s.aw s.mem x.ptr x.rem)

include hok in
/-- While bytes are left the cursor has not wrapped. -/
theorem fed_ptr_of_lt (hj : j < x.rem) (q : Seq) : (s.fed x q j).ptr = x.ptr + j := by
  have hsum := sum_le_of_not_badRange hok (by omega)
  exact Nat.mod_eq_of_lt (by omega)

include hok in
/-- While bytes are left the next one can be read, and a byte step consumes it. -/
theorem fed_byte (hj : j < x.rem) (q : Seq) : ∃ b, s.mem.read? (s.fed x q j).ptr = some b ∧
    s.fed x q (j + 1) = { s.fed x q j with
      c := cbyte tabAt (s.fed x q j).c b, ptr := advance s.aw (s.fed x q j).ptr 1, rem := (s.fed x q j).rem - 1 } := by
  obtain ⟨b, hb⟩ := read?_of_not_badRange hok (a := x.ptr + j) (by omega) (by omega)
  refine ⟨b, by rwa [fed_ptr_of_lt hok hj], ?_⟩
  rw [State.fed_add, Memory.message_one hb]
  rfl

include hok in
/-- While eight bytes are left they can be read, and a fold step consumes them. -/
theorem fed_word (hj : j + 8 ≤ x.rem) (q : Seq) : ∃ w, s.mem.read8? (s.fed x q j).ptr = some w ∧
    s.fed x q (j + 8) = { s.fed x q j with
      c := cfold tabAt (s.fed x q j).c w, ptr := advance s.aw (s.fed x q j).ptr 8, rem := (s.fed x q j).rem - 8 } := by
  obtain ⟨w, hw⟩ : ∃ w, s.mem.read8? (x.ptr + j) = some w :=
    Memory.read8?_isSome fun a hlo hhi => read?_of_not_badRange hok (by omega) (by omega)
  refine ⟨w, by rwa [fed_ptr_of_lt hok (by omega)], ?_⟩
  rw [State.fed_add, Memory.message_eight hw, cfold_tabAt]

include hx

include htable hok in
theorem turn_fed_headByte (hj : j < x.rem) (ha : (x.ptr + j) % 8 ≠ 0) :
    turn c (s.setCtx c (s.fed x .cHead j)) = .next (s.setCtx c (s.fed x .cHead (j + 1))) := by
  obtain ⟨b, hb, hfed⟩ := fed_byte hok hj .cHead
  have hturn := turn_headByte (State.ctx?_setCtx_same (x := s.fed x .cHead j) hx) rfl (by rwa [fed_ptr_of_lt hok hj])
    (by rw [State.fed_rem]; omega) hb
  rw [hturn, State.setCtx_setCtx, State.setCtx_table, htable, hfed]
  rfl

include hok in
theorem turn_fed_leaveHead (h : j < x.rem → (x.ptr + j) % 8 = 0) :
    turn c (s.setCtx c (s.fed x .cHead j)) = .next (s.setCtx c (s.fed x .cFold j)) := by
  have hleave : (s.fed x .cHead j).ptr % 8 = 0 ∨ (s.fed x .cHead j).rem = 0 := by
    by_cases hj : j < x.rem
    · exact .inl (by rw [fed_ptr_of_lt hok hj, h hj])
    · exact .inr (by rw [State.fed_rem]; omega)
  rw [turn_leaveHead (State.ctx?_setCtx_same hx) rfl hleave, phaseChange, State.setCtx_setCtx]
  rfl

include htable hok in
theorem turn_fed_fold (hj : j + 8 ≤ x.rem) (ha : (x.ptr + j) % 8 = 0) :
    turn c (s.setCtx c (s.fed x .cFold j)) = .next (s.setCtx c (s.fed x .cFold (j + 8))) := by
  obtain ⟨w, hw, hfed⟩ := fed_word hok hj .cFold
  have hturn := turn_fold (State.ctx?_setCtx_same (x := s.fed x .cFold j) hx) rfl (by rw [State.fed_rem]; omega)
    (by rw [fed_ptr_of_lt hok (by omega), ha]) hw
  rw [hturn, State.setCtx_setCtx, State.setCtx_table, htable, hfed]
  rfl

theorem turn_fed_leaveFold (h : x.rem < j + 8) :
    turn c (s.setCtx c (s.fed x .cFold j)) = .next (s.setCtx c (s.fed x .cTail j)) := by
  rw [turn_leaveFold (State.ctx?_setCtx_same hx) rfl (by rw [State.fed_rem]; omega), phaseChange, State.setCtx_setCtx]
  rfl

include htable hok in
theorem turn_fed_tailByte (hj : j < x.rem) :
    turn c (s.setCtx c (s.fed x .cTail j)) = .next (s.setCtx c (s.fed x .cTail (j + 1))) := by
  obtain ⟨b, hb, hfed⟩ := fed_byte hok hj .cTail
  have hturn := turn_tailByte (State.ctx?_setCtx_same (x := s.fed x .cTail j) hx) rfl (by rw [State.fed_rem]; omega) hb
  rw [hturn, State.setCtx_setCtx, State.setCtx_table, htable, hfed]
  rfl

theorem turn_fed_finish : turn c (s.setCtx c (s.fed x .cTail x.rem)) = .next (finishCrc32c c (s.fed x .cTail x.rem) s) := by
  rw [turn_finishCrc32c (State.ctx?_setCtx_same hx) rfl (by rw [State.fed_rem, Nat.sub_self]), finishCrc32c, State.setCtx_setCtx]
  rfl

include htable hok

/-- The head phase: a byte step for each byte up to the first boundary, and the phase change. -/
theorem runTurns_head : runTurns (s.setCtx c (s.fed x .cHead 0)) (List.replicate (headCount x.ptr x.rem + 1) c) =
    .next (s.setCtx c (s.fed x .cFold (headCount x.ptr x.rem))) :=
  runTurns_loop (fun i => s.setCtx c (s.fed x .cHead i))
    (fun _ hi => turn_fed_headByte hx htable hok (hi.trans_le (headCount_le _ _)) (misaligned_of_lt_headCount hi))
    (turn_fed_leaveHead hx hok aligned_after_headCount)

/-- The fold phase: a fold step for each whole word, and the phase change. -/
theorem runTurns_fold : runTurns (s.setCtx c (s.fed x .cFold (headCount x.ptr x.rem))) (List.replicate (foldCount x.ptr x.rem + 1) c) =
    .next (s.setCtx c (s.fed x .cTail (headCount x.ptr x.rem + 8 * foldCount x.ptr x.rem))) := by
  obtain ⟨hsum, hshort⟩ := counts_sum x.ptr x.rem
  refine runTurns_loop (fun i => s.setCtx c (s.fed x .cFold (headCount x.ptr x.rem + 8 * i))) (fun i hi => ?_)
    (turn_fed_leaveFold hx hshort)
  have haligned := aligned_after_headCount (a := x.ptr) (len := x.rem) (by omega)
  exact turn_fed_fold hx htable hok (by omega) (by omega)

/-- The tail phase: a byte step for each byte left, and the finish step. -/
theorem runTurns_tail : runTurns (s.setCtx c (s.fed x .cTail (headCount x.ptr x.rem + 8 * foldCount x.ptr x.rem)))
    (List.replicate (tailCount x.ptr x.rem + 1) c) = .next (finishCrc32c c (s.fed x .cTail x.rem) s) := by
  obtain ⟨hsum, -⟩ := counts_sum x.ptr x.rem
  refine runTurns_loop (fun i => s.setCtx c (s.fed x .cTail (headCount x.ptr x.rem + 8 * foldCount x.ptr x.rem + i)))
    (fun i hi => turn_fed_tailByte hx htable hok (by omega)) ?_
  rw [hsum]
  exact turn_fed_finish hx

/-- From `C_HEAD` the three phases consume the whole message and the finish step answers (R124, R136). -/
theorem runTurns_pastGuard : runTurns (s.setCtx c (s.fed x .cHead 0))
    (List.replicate (headCount x.ptr x.rem + foldCount x.ptr x.rem + tailCount x.ptr x.rem + 3) c) =
    .next (finishCrc32c c (s.fed x .cTail x.rem) s) := by
  have hturns : headCount x.ptr x.rem + foldCount x.ptr x.rem + tailCount x.ptr x.rem + 3 =
      (headCount x.ptr x.rem + 1) + ((foldCount x.ptr x.rem + 1) + (tailCount x.ptr x.rem + 1)) := by omega
  rw [hturns, List.replicate_add, runTurns_append _ _ (runTurns_head hx htable hok), List.replicate_add (_ + 1),
    runTurns_append _ _ (runTurns_fold hx htable hok), runTurns_tail hx htable hok]

end PastTheGuard

/-- A `C32C.UPDATE` that is taken with the table empty builds it, consumes its message and answers. -/
theorem runTurns_buildThenAnswer {s : State} {c : Nat} {x : Context} {arg : Word} {addr len : Nat}
    (h : CanTake s c x (.c32cUpdate c arg addr len)) (ht : s.tblState = .empty) :
    runTurns s (List.replicate (headCount addr len + foldCount addr len + tailCount addr len + 5 + 2049) c) =
      .next (finishCrc32c c ((s.dropCommand c).built.fed (loadOf (.c32cUpdate c arg addr len) x) .cTail len) (s.dropCommand c).built) := by
  obtain ⟨k, hk, hd⟩ := h.command
  have htaken := turn_taken h.context h.idle hk hd h.operands
  have hbuilt := runTurns_guardWon (s := (s.dropCommand c).setCtx c (loadOf (.c32cUpdate c arg addr len) x))
    (State.ctx?_setCtx_same h.context) rfl ht
  have hanswer := runTurns_pastGuard (s := (s.dropCommand c).built) (x := loadOf (.c32cUpdate c arg addr len) x) h.context
    (funext₂ Table.get_final) h.operands
  rw [State.fed_zero h.fits.addr] at hanswer
  have hturns : headCount addr len + foldCount addr len + tailCount addr len + 5 + 2049 =
      2050 + (headCount addr len + foldCount addr len + tailCount addr len + 3) + 1 := by omega
  rw [hturns, List.replicate_succ, runTurns_cons _ htaken, List.replicate_add, runTurns_append _ _ hbuilt]
  rw [← State.setCtx_setCtx _ c (loadOf (.c32cUpdate c arg addr len) x)] at hanswer
  exact hanswer

end Sys2Proof.Machine

namespace Sys2Proof

open Machine

/-! ### A ready table -/

/-- No turn touches a ready table: the guard step that writes needs `EMPTY`, and no context is the builder. -/
theorem Inv.turnTo_ready {s t : State} (h : Inv s) (hready : s.tblState = .ready) {c : Nat} (ht : TurnTo c s t) :
    t.tblState = .ready ∧ t.table = s.table ∧ t.tblIdx = s.tblIdx := by
  have hbuilder : ∀ x, s.ctx? c = some x → x.seq ≠ .cBuild := fun x hx => h.noBuilder (by simp [hready]) hx
  obtain ⟨hstate, hidx, htable⟩ | ⟨x, hx, ⟨-, hempty, -⟩ | ⟨hq, -⟩ | ⟨hq, -⟩⟩ := ht.shared_cases
  · exact ⟨hstate.trans hready, htable, hidx⟩
  · simp [hready] at hempty
  · exact absurd hq (hbuilder x hx)
  · exact absurd hq (hbuilder x hx)

/-! ### The end of the hold -/

/-- From a ready table a run along any turns does not stop and ends with a ready table. -/
theorem Inv.runTurns_ready {s : State} (h : Inv s) (hready : s.tblState = .ready) (cs : List Nat) :
    ∃ t, runTurns s cs = .next t ∧ t.tblState = .ready := by
  induction cs generalizing s with
  | nil => exact ⟨s, runTurns_nil s, hready⟩
  | cons c cs ih =>
    obtain ⟨t, ht⟩ := h.turn_next c
    rw [runTurns_cons cs ht]
    exact ih (h.turnTo (turn_cases ht)) (h.turnTo_ready hready (turn_cases ht)).1

/-- While `b` is the builder a turn of another context changes neither `b` nor the number of entries written. -/
theorem Inv.turnTo_building {s t : State} (h : Inv s) {b : Nat} {x : Context} (hx : s.ctx? b = some x) (hq : x.seq = .cBuild) {c : Nat}
    (hc : c ≠ b) (ht : TurnTo c s t) : t.ctx? b = some x ∧ t.tblIdx = s.tblIdx := by
  refine ⟨(ht.ctx?_other hc.symm).trans hx, ?_⟩
  have hother : ∀ y, s.ctx? c = some y → y.seq ≠ .cBuild := fun y hy hyq => hc (h.oneBuilder c b y x hy hx hyq hq)
  obtain ⟨-, hidx, -⟩ | ⟨y, hy, ⟨-, hempty, -⟩ | ⟨hyq, -⟩ | ⟨hyq, -⟩⟩ := ht.shared_cases
  · exact hidx
  · simp [(h.filledBelow hx hq).1] at hempty
  · exact absurd hyq (hother y hy)
  · exact absurd hyq (hother y hy)

/-! ### The obligations about the values -/

/-- Settles O23: the rules are the definitions' equations, and the seven examples are computed. -/
theorem tableValuesFollowTheRules : Obligations.TableValuesFollowTheRules := by
  refine ⟨rstep_eq, fun _ => rfl, fun k n => ?_, by decide, by decide, by decide, by decide, by decide, by decide +kernel,
    by decide +kernel⟩
  rw [← BitVec.setWidth_eq_extractLsb' (by decide)]
  rfl

/-- Settles O24: `tab_xor`, and the byte step is a zero step. -/
theorem tableRowsAreLinear : Obligations.TableRowsAreLinear := by
  refine ⟨tab_xor, tab_zero_byte, fun n => ?_, fun k n => ?_⟩
  · rw [cbyte_tabAt, BitVec.zero_xor, tab_zero_eq]
  · rw [cbyte_tabAt, tab_succ, BitVec.setWidth_zero, BitVec.xor_zero]

/-- Settles O25: by linearity two equal entries make an entry 0 at the exclusive OR of their indexes, and only index 0 has one. -/
theorem tableRowsHaveDistinctEntries : Obligations.TableRowsHaveDistinctEntries := by
  intro k a b h
  have hzero : tab k.toNat (a ^^^ b) = 0#32 := by
    rw [tab_xor, show tab k.toNat a = tab k.toNat b from h, BitVec.xor_self]
  exact BitVec.xor_eq_zero_iff.1 (eq_zero_of_tab_eq_zero hzero)

/-! ### The obligations about the steps of the guard and the builder -/

/-- Settles O26: the listed turn is the guard step, which `TBL_STATE` decides. -/
theorem guardStepTestsAndSets : Obligations.GuardStepTestsAndSets := by
  intro s es c x he hx hq
  rw [step_cons he]
  exact ⟨turn_guardWon (s := { s with events := es }) hx hq, turn_guardPassed (s := { s with events := es }) hx hq,
    turn_held (s := { s with events := es }) hx hq⟩

/-- Settles O27: the listed turn is the entry-write step, and `Table.get_set` says what the table holds after it. -/
theorem entryWriteStoresOneEntry : Obligations.EntryWriteStoresOneEntry := by
  intro s es c x k n he hx hq hi hk hn
  have hturn := turn_entryWrite (s := { s with events := es }) hx hq hi
  obtain rfl : k = entryRow s.tblIdx := hk
  obtain rfl : n = entryIndex s.tblIdx := hn
  refine ⟨_, (step_cons he).trans hturn, rfl, ?_, fun hk0 => ?_, fun hk0 => ?_, fun k' n' hne => ?_⟩
  · simp only [entryWrite_tblIdx, BitVec.toNat_add, BitVec.toNat_ofNat]
    omega
  · simp only [entryWrite_table, Table.get_set, and_self, if_true, entryValue, if_pos hk0]
    rfl
  · simp only [entryWrite_table, Table.get_set, and_self, if_true, entryValue, if_neg hk0,
      BitVec.setWidth_eq_extractLsb' (show 8 ≤ 32 by decide)]
  · simp only [entryWrite_table, Table.get_set, if_neg (not_and_or.2 hne)]

/-- Settles O28: the listed turn is the publish step; after it another context finds `READY` at the guard. -/
theorem publishMakesTheTableReady : Obligations.PublishMakesTheTableReady := by
  intro s es c x he hx hq hi
  have hturn := turn_publish (s := { s with events := es }) hx hq hi
  exact ⟨_, (step_cons he).trans hturn, rfl, fun n y hn hy hyq =>
    turn_guardPassed ((State.ctx?_setCtx_other hn).trans hy) hyq rfl⟩

/-- Settles O30: every case of `TurnTo.shared_cases` that writes the shared state needs a table not yet ready. -/
theorem readyTableIsImmutable : Obligations.ReadyTableIsImmutable := by
  intro s t hs hready h
  obtain ⟨es, n, u, rfl, ⟨c, ht, -⟩ | ⟨k, -, rfl⟩ | ⟨a, b, -, -, rfl⟩ | ⟨he, rfl⟩⟩ := step_cases h
  · have hinv : Inv { s with events := es, freeCtr := n } := hs.congr rfl rfl rfl rfl rfl rfl fun _ hk => hk
    exact .inl (hinv.turnTo_ready hready ht)
  · exact .inl ⟨hready, rfl, rfl⟩
  · exact .inl ⟨hready, rfl, rfl⟩
  · exact .inr ⟨es, he⟩

/-! ### The obligations about the build -/

/-- Settles O29: the build leaves the finished table. -/
theorem builderFillsTheWholeTable : Obligations.BuilderFillsTheWholeTable :=
  fun _ _ _ hx hq ht => ⟨_, runTurns_guardWon hx hq ht, rfl, Table.get_final⟩

/-- Settles O32: along the run, a turn of another context leaves the build as it is, a turn of the builder writes one more entry, and its
turn at 2048 entries publishes. -/
theorem holdEndsWhenTheBuilderHasHadItsTurns : Obligations.HoldEndsWhenTheBuilderHasHadItsTurns := by
  intro s b x cs h hx hq hcount
  induction cs generalizing s with
  | nil =>
    have := h.index
    rw [List.count_nil] at hcount
    omega
  | cons c cs ih =>
    obtain ⟨t, hturn⟩ := h.turn_next c
    have ht := turn_cases hturn
    by_cases hc : c = b
    · subst hc
      rw [List.count_cons_self] at hcount
      obtain hlt | hfull := h.index.lt_or_eq
      · have hidx := (filledBelow_entryWrite hlt (h.filledBelow hx hq).2).2
        rw [runTurns_cons cs (turn_entryWrite hx hq hlt)]
        exact ih (entryWrite s) (h.entryWrite hx hq hlt) hx (by omega)
      · rw [runTurns_cons cs (turn_publish hx hq hfull)]
        exact (h.publish hx hq hfull).runTurns_ready rfl cs
    · obtain ⟨hx', hidx⟩ := h.turnTo_building hx hq hc ht
      rw [List.count_cons_of_ne hc] at hcount
      rw [runTurns_cons cs hturn]
      exact ih t (h.turnTo ht) hx' (by rwa [hidx])

/-- Settles O42: `runTurns_buildThenAnswer`; the finish step returns the complement of the working register. -/
theorem crc32cCommandBuildsThenAnswers : Obligations.Crc32cCommandBuildsThenAnswers := by
  intro s c x arg addr len h ht
  refine ⟨_, runTurns_buildThenAnswer h ht, ?_, rfl, rfl, Table.get_final, ⟨_, State.ctx?_setCtx_same h.context, rfl, rfl, rfl⟩,
    fun n hn => State.ctx?_setCtx_other hn, rfl, rfl⟩
  have hresult := State.fed_result (s := (s.dropCommand c).built) (x := loadOf (.c32cUpdate c arg addr len) x) rfl .cTail
  exact congrArg (fun v => s.outbox ++ [{ ctx := c, resp := .ok v }]) hresult

end Sys2Proof
end

section
/-! Proofs of the statements about the CRC-32C update: the byte step and the fold step, the function as a byte-wise fold, the step of each
phase, and `C32C.UPDATE` from its accept step to its answer over a table that is ready. -/

namespace Sys2Proof.Machine

/-! ### The byte step and the fold step -/

/-- Masking a register to its low byte before taking that byte changes nothing. -/
theorem extractByte_mask (c : Word) : (c &&& 0xFF#32).extractLsb' 0 8 = c.setWidth 8 := by
  have hmask : (0xFF#32 : Word).extractLsb' 0 8 = BitVec.allOnes 8 := by decide
  rw [BitVec.extractLsb'_and, hmask, BitVec.and_allOnes, BitVec.setWidth_eq_extractLsb' (by decide)]

/-- The byte step with the XOR at the register's width (R121). -/
theorem cbyte_eq (t : BitVec 3 → Byte → Word) (c : Word) (b : Byte) :
    cbyte t c b = t 0#3 (((c ^^^ b.setWidth 32) &&& 0xFF#32).extractLsb' 0 8) ^^^ (c >>> 8) := by
  rw [extractByte_mask, BitVec.setWidth_xor, BitVec.setWidth_setWidth_of_le _ (by decide), BitVec.setWidth_eq]
  rfl

/-- The fold step byte by byte: the register meets only the low four bytes of the word (R122). -/
theorem cfold_eq (t : BitVec 3 → Byte → Word) (c : Word) (w : DWord) :
    cfold t c w =
      t 7#3 (c.extractLsb' 0 8 ^^^ w.extractLsb' 0 8) ^^^ t 6#3 (c.extractLsb' 8 8 ^^^ w.extractLsb' 8 8)
        ^^^ t 5#3 (c.extractLsb' 16 8 ^^^ w.extractLsb' 16 8) ^^^ t 4#3 (c.extractLsb' 24 8 ^^^ w.extractLsb' 24 8)
        ^^^ t 3#3 (w.extractLsb' 32 8) ^^^ t 2#3 (w.extractLsb' 40 8) ^^^ t 1#3 (w.extractLsb' 48 8) ^^^ t 0#3 (w.extractLsb' 56 8) := by
  simp [cfold, BitVec.extractLsb'_xor, extractByte_setWidth, extractByte_high]

/-! ### The function -/

/-- The complement undoes itself. -/
theorem xor_ones_xor_ones (v : Word) : (v ^^^ ones) ^^^ ones = v := by
  rw [BitVec.xor_assoc, BitVec.xor_self, BitVec.xor_zero]

/-- A message in two pieces: between them the complement at the end of the first cancels the one at the start of the second (R131). -/
theorem c32cBytewise_append (run : Word) (as bs : List Byte) :
    c32cBytewise run (as ++ bs) = c32cBytewise (c32cBytewise run as) bs := by
  simp only [c32cBytewise, List.foldl_append, xor_ones_xor_ones]

/-- No bytes: the two complements cancel (R130). -/
theorem c32c_nil (run : Word) (a : Nat) : c32c run a [] = run :=
  (c32c_eq_bytewise run a []).trans (xor_ones_xor_ones run)

/-! ### Reading a word -/

/-- A 64-bit word is determined by its eight bytes. -/
theorem dword_ext {v w : DWord} (h : ∀ j, j < 8 → v.extractLsb' (8 * j) 8 = w.extractLsb' (8 * j) 8) : v = w := by
  apply BitVec.eq_of_getLsbD_eq
  intro i hi
  have hbyte := congrArg (BitVec.getLsbD · (i % 8)) (h (i / 8) (by omega))
  simpa [Nat.mod_lt, Nat.div_add_mod] using hbyte

/-- An eight-byte read answers the word whose bytes stand at the eight addresses (R33). -/
theorem Memory.read8?_of_bytes {m : Memory} {a : Nat} {w : DWord}
    (h : ∀ j, j < 8 → m.read? (a + j) = some (w.extractLsb' (8 * j) 8)) : m.read8? a = some w := by
  obtain ⟨v, hv⟩ : ∃ v, m.read8? a = some v := by
    refine Memory.read8?_isSome fun n hlo hhi => ?_
    obtain ⟨j, rfl⟩ := Nat.exists_eq_add_of_le hlo
    exact ⟨_, h j (by omega)⟩
  have hvw : v = w := dword_ext fun j hj => Option.some.inj ((Memory.read?_of_read8? hv hj).symm.trans (h j hj))
  rw [hv, hvw]

/-! ### `C32C.UPDATE` over a ready table -/

/-- The first two turns of a `C32C.UPDATE` that is taken with the table ready: the accept step and the guard step (R57, R105). -/
theorem runTurns_acceptThenGuard {s : State} {c : Nat} {x : Context} {k : Command} {arg : Word} {addr len : Nat} (hx : s.ctx? c = some x)
    (hq : x.seq = .idle) (hk : s.nextCommand c = some k) (hd : decode k = .ok (.c32cUpdate c arg addr len))
    (hok : ¬ BadRange s.aw s.mem addr len) (ht : s.tblState = .ready) (cs : List Nat) :
    runTurns s (c :: c :: cs) =
      runTurns ((s.dropCommand c).setCtx c { loadOf (.c32cUpdate c arg addr len) x with seq := .cHead }) cs := by
  have htaken := turn_taken hx hq hk hd hok
  have hpassed := turn_guardPassed (s := (s.dropCommand c).setCtx c (loadOf (.c32cUpdate c arg addr len) x)) (State.ctx?_setCtx_same hx) rfl ht
  rw [runTurns_cons _ htaken, runTurns_cons _ hpassed, State.setCtx_setCtx]

/-- A `C32C.UPDATE` that is taken with the table ready consumes its message and answers. -/
theorem runTurns_answerWhenReady {s : State} {c : Nat} {x : Context} {arg : Word} {addr len : Nat}
    (h : CanTake s c x (.c32cUpdate c arg addr len)) (ht : s.tblState = .ready) (htable : s.table.get = tabAt) :
    runTurns s (List.replicate (headCount addr len + foldCount addr len + tailCount addr len + 5) c) =
      .next (finishCrc32c c ((s.dropCommand c).fed (loadOf (.c32cUpdate c arg addr len) x) .cTail len) (s.dropCommand c)) := by
  obtain ⟨k, hk, hd⟩ := h.command
  have hanswer := runTurns_pastGuard (s := s.dropCommand c) (x := loadOf (.c32cUpdate c arg addr len) x) h.context htable h.operands
  rw [State.fed_zero h.fits.addr] at hanswer
  exact (runTurns_acceptThenGuard h.context h.idle hk hd h.operands ht _).trans hanswer

/-- The finish step with all of the message consumed: no byte is left, `C` holds the complement of the result, and the result is returned
(R125). -/
theorem finishCrc32c_fed {s : State} {c : Nat} {x : Context} {arg : Word} (h : x.c = arg ^^^ ones) :
    finishCrc32c c (s.fed x .cTail x.rem) s =
      (s.setCtx c { x with
        c := c32c arg x.ptr (s.mem.message x.ptr x.rem) ^^^ ones, ptr := advance s.aw x.ptr x.rem, rem := 0, seq := .idle, job := none }).respond
          c (.ok (c32c arg x.ptr (s.mem.message x.ptr x.rem))) := by
  rw [← State.fed_result h .cTail, xor_ones_xor_ones]
  simp only [finishCrc32c, State.fed, Nat.sub_self]

/-- From `C_HEAD` with no byte left the two phase changes and the finish step return the register, wherever `PTR` stands. -/
theorem runTurns_noBytes {s : State} {c : Nat} {x : Context} (hx : s.ctx? c = some x) (hq : x.seq = .cHead) (hr : x.rem = 0) :
    runTurns s [c, c, c] = .next (finishCrc32c c x s) := by
  have hhead := turn_leaveHead hx hq (.inr hr)
  have hfold := turn_leaveFold (s := phaseChange c x .cFold s) (State.ctx?_setCtx_same hx) rfl (hr.trans_lt (by decide))
  have htail := turn_finishCrc32c (s := phaseChange c { x with seq := .cFold } .cTail (phaseChange c x .cFold s))
    (State.ctx?_setCtx_same (State.ctx?_setCtx_same hx)) rfl hr
  rw [runTurns_cons _ hhead, runTurns_cons _ hfold, runTurns_cons [] htail, runTurns_nil]
  simp only [finishCrc32c, phaseChange, State.setCtx_setCtx]

end Sys2Proof.Machine

namespace Sys2Proof

open Machine

/-! ### The obligations about the two steps -/

/-- Settles O33: `cbyte_eq` and `cfold_eq`; the rules' examples are computed. -/
theorem byteStepAndFoldStepFormulas : Obligations.ByteStepAndFoldStepFormulas :=
  ⟨cbyte_eq, cfold_eq, by decide +kernel⟩

/-- Settles O34: `cfold_tabAt`, since a table equal to `TAB` is `tabAt`. -/
theorem foldIsEightByteSteps : Obligations.FoldIsEightByteSteps := by
  intro t ht c w
  obtain rfl : t = tabAt := funext₂ ht
  exact cfold_tabAt c w

/-- Settles O40: the listed turn is the step of its phase; the eight bytes at `PTR` make up the word a fold step reads. -/
theorem phasesConsumeTheMessage : Obligations.PhasesConsumeTheMessage := by
  intro s es c x he hx
  have hx' : ({ s with events := es } : State).ctx? c = some x := hx
  rw [step_cons he]
  refine ⟨fun b hq hr hb => ?_, turn_leaveHead hx', fun w hq hr ha hw => ?_, turn_leaveFold hx', turn_finishCrc32c hx'⟩
  · obtain ⟨hq, ha⟩ | hq := hq
    · exact turn_headByte hx' hq ha (Nat.ne_of_gt hr) hb
    · exact turn_tailByte hx' hq (Nat.ne_of_gt hr) hb
  · exact turn_fold hx' hq hr ha (Memory.read8?_of_bytes hw)

/-! ### The obligations about the function -/

/-- Settles O35: `c32c_eq_bytewise`. -/
theorem foldingComputesTheByteWiseForm : Obligations.FoldingComputesTheByteWiseForm := c32c_eq_bytewise

/-- Settles O36: `c32cBytewise_append`, for a list cut by `take` and `drop` and for a message cut by `message_add`. -/
theorem crc32cIsIncremental : Obligations.Crc32cIsIncremental := by
  refine ⟨fun run a a' b bytes k _ => ?_, ?_⟩
  · simp only [c32c_eq_bytewise, ← c32cBytewise_append, List.take_append_drop]
  · rintro aw m c d e arg x addr k n - hkn rfl
    obtain ⟨j, rfl⟩ := Nat.exists_eq_add_of_le hkn
    simp only [Instr.result, Instr.msg, Instr.addr, Instr.len, c32c_eq_bytewise, ← c32cBytewise_append, Nat.add_sub_cancel_left,
      Memory.message_add]

/-- Settles O39: the byte-wise form drops the address, and over the nine bytes it is computed. -/
theorem crc32cCheckValue : Obligations.Crc32cCheckValue := by
  intro m c addr hmsg
  simp only [Instr.result, Instr.msg, Instr.addr, Instr.len, hmsg, c32c_eq_bytewise]
  decide +kernel

/-! ### The obligations about whole commands -/

/-- Settles O41: `runTurns_answerWhenReady`, and `finishCrc32c_fed` for the state it ends in. -/
theorem crc32cCommandAnswersWhenReady : Obligations.Crc32cCommandAnswersWhenReady := by
  intro s c x arg addr len h ht htable
  rw [runTurns_answerWhenReady h ht (funext₂ htable)]
  exact congrArg Host.Outcome.next
    (finishCrc32c_fed (s := s.dropCommand c) (x := loadOf (.c32cUpdate c arg addr len) x) rfl)

/-- Settles O38: operands with `LEN = 0` are good, and past the guard no byte is left; the two complements cancel. -/
theorem crc32cEmptyInputReturnsTheArgument : Obligations.Crc32cEmptyInputReturnsTheArgument := by
  refine ⟨c32c_nil, ?_⟩
  intro s c x k arg addr hx hq hk hd ht
  have hguard := runTurns_acceptThenGuard hx hq hk hd (fun hbad => hbad.1 rfl) ht [c, c, c]
  have hanswer := runTurns_noBytes
    (s := (s.dropCommand c).setCtx c { loadOf (.c32cUpdate c arg addr 0) x with seq := .cHead }) (State.ctx?_setCtx_same hx) rfl rfl
  refine ⟨_, hguard.trans hanswer, ?_⟩
  exact congrArg (fun v => s.outbox ++ [{ ctx := c, resp := .ok v }]) (xor_ones_xor_ones arg)

end Sys2Proof
end

section
/-! Proofs of the statements about the two faults: an `OP` that encodes no command, bad operands, and where an error response comes from. -/

namespace Sys2Proof

open Machine

/-! ### Refused commands -/

/-- The decoder refuses an `OP` that is no command's encoding: what it reads from an opcode encodes to that opcode again. -/
theorem decode_eq_error_of_no_encoding {k : Command} (h : ∀ i : Instr, (encode i).op ≠ k.op) :
    decode k = .error (.illegalCommand k.op) := by
  refine (decode_eq_error_iff k _).2 ⟨fun hmem => ?_, rfl⟩
  obtain ⟨i, hi⟩ := decode_ok_of_mem hmem
  obtain ⟨-, hop, -⟩ := decodeDropsOnlyArgOfClassBs k i hi
  exact h i hop

end Sys2Proof

namespace Sys2Proof.Machine

/-- The turn of an `IDLE` context whose command does not decode raises `IllegalCommand`. -/
theorem turn_illegal {s : State} {c : Nat} {x : Context} {k : Command} {op : BitVec 8} (hx : s.ctx? c = some x) (hq : x.seq = .idle)
    (hk : s.nextCommand c = some k) (he : decode k = .error (.illegalCommand op)) : turn c s = .next (s.raise c .illegalCommand) := by
  simp only [turn, hx, hq, acceptStep, hk, he, errCodeOf]

/-- An `IDLE` context refuses a command with bad operands, whichever of the seven it is. -/
theorem exec_refused {i : Instr} {s : State} {x : Context} (hx : s.ctx? i.ctx = some x) (hq : x.seq = .idle)
    (hbad : BadRange s.aw s.mem i.addr i.len) : exec i s = .next (s.raise i.ctx .invalidArgument) :=
  (exec_eq_accept i s).trans (accept_refused hx hq hbad)

/-- Every command that is taken makes its context busy. -/
theorem loadOf_seq_ne_idle (i : Instr) (x : Context) : (loadOf i x).seq ≠ .idle := by
  rw [loadOf_seq]
  split <;> simp

/-- A turn that adds an error response is an accept step of the context that is answered: its command does not decode, or its operands are
bad. -/
theorem TurnTo.error_cases {s t : State} {c n : Nat} {e : ErrCode} (h : TurnTo n s t)
    (ho : t.outbox = s.outbox ++ [{ ctx := c, resp := .err e }]) :
    ∃ x k, s.ctx? c = some x ∧ x.seq = .idle ∧ s.nextCommand c = some k ∧ t.ctxs = s.ctxs ∧
      (e = .illegalCommand ∧ (∃ d, decode k = .error d) ∨
        e = .invalidArgument ∧ ∃ i, decode k = .ok i ∧ BadRange s.aw s.mem i.addr i.len) := by
  cases h with
  | illegal x hx hq k hk d hd =>
    obtain ⟨rfl, rfl⟩ : n = c ∧ ErrCode.illegalCommand = e := by simpa using ho
    exact ⟨x, k, hx, hq, hk, rfl, .inl ⟨rfl, d, hd⟩⟩
  | badOperands x hx hq k hk i hi hbad =>
    obtain ⟨rfl, rfl⟩ : n = c ∧ ErrCode.invalidArgument = e := by simpa using ho
    exact ⟨x, k, hx, hq, hk, rfl, .inr ⟨rfl, i, hi, hbad⟩⟩
  | _ => simp at ho

end Sys2Proof.Machine

namespace Sys2Proof

open Machine

/-! ### The obligations about the faults -/

/-- Settles O7: an `OP` with no encoding does not decode, so the listed turn raises `IllegalCommand`. -/
theorem illegalCommandIsRefusedAndChangesNothing : Obligations.IllegalCommandIsRefusedAndChangesNothing := by
  intro s es c x k he hx hq hk hop
  refine ⟨?_, rfl⟩
  rw [step_cons he]
  exact turn_illegal hx hq hk (decode_eq_error_of_no_encoding hop)

/-- Settles O8: bad operands are refused by `exec_refused`, all others are taken by `exec_taken`. -/
theorem badOperandsAreRefusedAndChangeNothing : Obligations.BadOperandsAreRefusedAndChangeNothing := by
  intro i s x hx hq
  refine ⟨fun hbad => ⟨exec_refused hx hq hbad, rfl⟩, fun hok => ?_⟩
  exact ⟨_, loadOf i x, exec_taken hx hq hok, rfl, State.ctx?_setCtx_same hx, loadOf_seq_ne_idle i x⟩

/-- Settles O53: only a turn adds an error response, and that turn is an accept step by `TurnTo.error_cases`. -/
theorem errorsComeOnlyFromAcceptSteps : Obligations.ErrorsComeOnlyFromAcceptSteps := by
  intro s t c e h ho
  obtain ⟨es, n, u, rfl, ⟨c', ht, -⟩ | ⟨k, -, rfl⟩ | ⟨a, b, -, -, rfl⟩ | ⟨-, rfl⟩⟩ := step_cases h
  · exact ht.error_cases ho
  · simp at ho
  · simp at ho
  · simp at ho

end Sys2Proof
end

section
/-! Proofs of the statements about reset and about termination: what a reset makes of the block, how many turns a context in each phase still
needs, and that every turn of a busy context that is not held takes one of them. -/

namespace Sys2Proof.Machine

/-- Every context of a block that has just been reset is `IDLE`. -/
theorem State.resetBlock_seq {s : State} {n : Nat} {x : Context} (h : s.resetBlock.ctx? n = some x) : x.seq = .idle := by
  rw [contextsFrom_getElem? _ _ _ _ _ _ h, Context.powerUp_seq]

/-- A context that is there holds what is written to it. -/
theorem State.ctx?_eq_of_ctxs_set {s t : State} {c : Nat} {x y z : Context} (hx : s.ctx? c = some x) (hy : t.ctx? c = some y)
    (h : t.ctxs = s.ctxs.set c z) : y = z := by
  have hz : t.ctx? c = some z := (State.ctx?_of_ctxs_eq (t := t) (s := s.setCtx c z) h c).trans (State.ctx?_setCtx_same hx)
  exact Option.some.inj (hy.symm.trans hz)

end Sys2Proof.Machine

namespace Sys2Proof

open Machine

/-! ### The turns a context still needs, phase by phase -/

section WorkLeft
variable {s : State} {x : Context}

@[simp] theorem workLeft_of_idle (h : x.seq = .idle) : workLeft s x = 0 := by simp [workLeft, h]

@[simp] theorem workLeft_of_bsRun (h : x.seq = .bsRun) : workLeft s x = x.rem + 1 := by simp [workLeft, h]

@[simp] theorem workLeft_of_cTail (h : x.seq = .cTail) : workLeft s x = x.rem + 1 := by simp [workLeft, h]

@[simp] theorem workLeft_of_cFold (h : x.seq = .cFold) : workLeft s x = x.rem + 2 := by simp [workLeft, h]

@[simp] theorem workLeft_of_cHead (h : x.seq = .cHead) : workLeft s x = x.rem + 3 := by simp [workLeft, h]

@[simp] theorem workLeft_of_cBuild (h : x.seq = .cBuild) : workLeft s x = (2049 - s.tblIdx.toNat) + (x.rem + 3) := by
  simp [workLeft, h]

@[simp] theorem workLeft_of_cGuard (h : x.seq = .cGuard) :
    workLeft s x = if s.tblState = .ready then x.rem + 4 else 2050 + (x.rem + 3) := by simp [workLeft, h]

/-- In the same phase a context with fewer bytes left needs fewer turns. -/
theorem workLeft_lt_of_rem_lt {y : Context} (hq : y.seq = x.seq) (hbusy : x.seq ≠ .idle) (hr : y.rem < x.rem) :
    workLeft s y < workLeft s x := by
  cases h : x.seq with
  | idle => exact absurd h hbusy
  | cGuard =>
    rw [workLeft_of_cGuard h, workLeft_of_cGuard (hq.trans h)]
    split <;> omega
  | bsRun | cBuild | cHead | cFold | cTail => simpa [h, hq.trans h] using hr

/-- The turns a command needs right after its accept step. -/
theorem workLeft_loadOf (i : Instr) : workLeft s (loadOf i x) =
    if i.bitSerial?.isSome then i.len + 1 else if s.tblState = .ready then i.len + 4 else i.len + 4 + 2049 := by
  have hseq := loadOf_seq i x
  by_cases hb : i.bitSerial?.isSome
  · rw [if_pos hb] at hseq ⊢
    rw [workLeft_of_bsRun hseq, loadOf_rem]
  · rw [if_neg hb] at hseq ⊢
    rw [workLeft_of_cGuard hseq, loadOf_rem]
    split <;> omega

end WorkLeft

/-! ### A turn takes one of them -/

/-- Every step of a busy context consumes message bytes, writes a table entry, or goes on to a phase that needs fewer turns. -/
theorem Inv.workLeft_lt {s t : State} (h : Inv s) {c : Nat} {x y : Context} (hx : s.ctx? c = some x) (hbusy : x.seq ≠ .idle)
    (hfree : ¬ (x.seq = .cGuard ∧ s.tblState = .building)) (ht : TurnTo c s t) (hy : t.ctx? c = some y) :
    workLeft t y < workLeft s x := by
  have hidx := h.index
  cases ht with
  | absent hx' => cases hx.symm.trans hx'
  | noCommand x' hx' hq | illegal x' hx' hq | badOperands x' hx' hq | taken x' hx' hq =>
    cases hx.symm.trans hx'
    exact absurd hq hbusy
  | held x' hx' hq hb =>
    cases hx.symm.trans hx'
    exact absurd ⟨hq, hb⟩ hfree
  | overrun x' hx' hq hi => omega
  | absorb x' hx' hq hr | byte x' hx' hq hr | fold x' hx' hq hr =>
    cases hx.symm.trans hx'
    cases State.ctx?_eq_of_ctxs_set hx hy rfl
    exact workLeft_lt_of_rem_lt (s := s) rfl hbusy (by dsimp only; omega)
  | entryWrite x' hx' hq hi =>
    cases hx.symm.trans hx'
    cases hx.symm.trans hy
    have hnext : (s.tblIdx + 1#12).toNat = s.tblIdx.toNat + 1 := by bv_omega
    rw [workLeft_of_cBuild hq, workLeft_of_cBuild hq, entryWrite_tblIdx, hnext]
    omega
  | guardWon x' hx' hq hcond | guardPassed x' hx' hq hcond | publish x' hx' hq hcond | leaveHead x' hx' hq hcond
  | leaveFold x' hx' hq hcond | finishBitSerial x' hx' hq hcond | finishCrc32c x' hx' hq hcond =>
    cases hx.symm.trans hx'
    cases State.ctx?_eq_of_ctxs_set hx hy rfl
    simp [hq, hcond]

/-- After the accept step of a command its context is still `IDLE`, where the command was refused, or loaded with it. -/
theorem exec_own_context {i : Instr} {s t : State} {x y : Context} (h : exec i s = .next t) (hx : s.ctx? i.ctx = some x)
    (hq : x.seq = .idle) (hy : t.ctx? i.ctx = some y) : y.seq = .idle ∨ y = loadOf i x := by
  rw [exec_eq_accept] at h
  obtain ⟨-, hbusy⟩ | ⟨x', hx', -, ⟨-, rfl⟩ | ⟨-, rfl⟩⟩ := accept_cases h
  · exact absurd hq (hbusy x hx)
  · cases hx.symm.trans hy
    exact .inl hq
  · cases hx.symm.trans hx'
    exact .inr (State.ctx?_eq_of_ctxs_set hx hy rfl)

/-! ### The obligations -/

/-- Settles O57: `TurnTo.workLeft_lt` for the turns, and right after the accept step what `workLeft_loadOf` says. -/
theorem commandsTerminate : Obligations.CommandsTerminate := by
  refine ⟨fun s t c x y hs hx hbusy hfree h hy => hs.workLeft_lt hx hbusy hfree (turn_cases h) hy, ?_⟩
  rintro s t i y h hy ⟨x, hx, hq⟩
  obtain hidle | rfl := exec_own_context h hx hq hy
  · simp [workLeft_of_idle hidle]
  · rw [workLeft_loadOf]
    refine ⟨fun hb => by simp [hb], fun hready => ?_, ?_⟩
    · rw [if_pos hready]
      split <;> omega
    · split_ifs <;> omega

/-- Settles O47: the step is `State.resetBlock`, whose contexts are all `IDLE` by `State.resetBlock_seq`. -/
theorem resetAbandonsEveryTransaction : Obligations.ResetAbandonsEveryTransaction := by
  intro s es he
  refine ⟨State.resetBlock { s with events := es }, step_cons he, fun n x hx => State.resetBlock_seq hx, ?_⟩
  exact ⟨length_contextsFrom _ _ _ _, rfl, rfl, rfl, rfl, rfl⟩

end Sys2Proof
end
